-- ==== Sys2Proof/Word.lean ====
section
/-! DEFINITION. The value types of the block (spec/00_scope.md R9: all values are unsigned; bit 0 is the least significant). -/

namespace Sys2Proof

/-- A scan code, or the payload of one frame: 8 bits (R18, R56). -/
abbrev Byte := BitVec 8

/-- A logical keycode: 16 bits, 0 meaning "no key" (R62). -/
abbrev Keycode := BitVec 16

/-- A modifier mask: 16 bits (R61). -/
abbrev Mods := BitVec 16

/-- Sparse storage: the entries written so far, as (index, value) pairs in strictly rising index order.
An index with no pair has never been written (R35: the arrays are unspecified after reset). -/
abbrev Memory (α : Type) := List (Nat × α)

end Sys2Proof
end

