-- ==== Sys2Proof/Syntax.lean ====
section
/-! DEFINITION. The instructions: one constructor per row of spec/opcode_table.json, and the word formats of spec/30_encoding.md. -/

namespace Sys2Proof

/-- The five formats of the opcode table. -/
inductive Format where
  /-- The 10-bit decode word `B, E, s` (R59). -/
  | decodeWord
  /-- The 11 line levels of one frame (R56), with the time operand above them (log 15). -/
  | frame
  /-- A transaction: the 2-bit tag of R65, with EDGE's operands above it (log 15). -/
  | transaction
  /-- The 18-bit sink word `op[17:16], value[15:0]` (R64). -/
  | sinkOp
  /-- The 3-bit mode index (R63), with the event `(k, m)` above it (log 15). -/
  | modeIndex
deriving DecidableEq, Repr

/-- One instruction word: its format and its bits, bit 0 the least significant. -/
structure InWord where
  fmt  : Format
  bits : Nat
deriving DecidableEq, Repr

/-- A sink operation (R64). -/
inductive SinkOp where
  | setMods (m : Mods)
  | setKey (k : Keycode)
  | send
deriving DecidableEq, Repr

/-- Every row of the opcode table. `b`, `e` and `s` are the fields `B`, `E`, `s` of the decode word (R59), kept
where the row does not fix them. -/
inductive Instr where
  -- prefix bytes (R86, R87)
  | pfxBreak (b e : Bool)
  | pfxExt (b e : Bool)
  -- modifier presses (R89)
  | makeLShift (e : Bool)
  | makeRShift (e : Bool)
  | makeLAlt
  | makeRAlt
  | makeLCtrl
  | makeRCtrl
  | makeLGui
  | makeRGui
  -- modifier releases (R90)
  | breakLShift (e : Bool)
  | breakRShift (e : Bool)
  | breakLAlt
  | breakRAlt
  | breakLCtrl
  | breakRCtrl
  | breakLGui
  | breakRGui
  -- navigation presses (R93)
  | makeNavHome
  | makeNavEnd
  | makeNavPgUp
  | makeNavPgDn
  | makeNavUp
  | makeNavLeft
  | makeNavDown
  | makeNavRight
  | makeNavDel
  -- navigation releases (R94)
  | breakNavHome
  | breakNavEnd
  | breakNavPgUp
  | breakNavPgDn
  | breakNavUp
  | breakNavLeft
  | breakNavDown
  | breakNavRight
  | breakNavDel
  -- mode-switch codes (R95, R96, R97)
  | modeNext
  | modePrev
  | makeModeNextIgnored
  | makeModePrevIgnored
  -- ordinary keys (R98, R99)
  | breakKey (e : Bool) (s : Byte)
  | makeKey (e : Bool) (s : Byte)
  -- the frame form (R56, R68): bit `10 - i` of `levels` is the line level at edge `i`
  | frame (levels : BitVec 11) (t : Nat)
  -- transactions (R65)
  | edge (d : Bool) (t : Nat)
  | poll
  | reset
  -- sink operations (R64)
  | setMods (m : Mods)
  | setKey (k : Keycode)
  | send
  -- the modes' handling of one event `(k, m)` (R106)
  | modeIdentity (k : Keycode) (m : Mods)
  | modeDigraph (k : Keycode) (m : Mods)
  | modeWordSubstitute (k : Keycode) (m : Mods)
  | modeWordReverse (k : Keycode) (m : Mods)
  | modeRandomInterject (k : Keycode) (m : Mods)
deriving DecidableEq, Repr

end Sys2Proof
end

