-- ==== Sys2Proof/WellFormed.lean ====
section
/-! DEFINITION. Well-formed instructions: a catch-all row holds no scan code that an earlier row of the opcode map takes (spec/30_encoding.md R60). -/

namespace Sys2Proof

/-- The prefix bytes (R58). -/
def isPrefixCode (s : Byte) : Bool := s == 0xF0 || s == 0xE0

/-- Scan codes that are a modifier with or without `E0` (R60 rows 3 to 8). -/
def isModifierCode (s : Byte) : Bool := s == 0x12 || s == 0x59 || s == 0x11 || s == 0x14

/-- Scan codes that rows 9, 10 and 19 to 40 of R60 take only with `E0`: GUI, navigation and mode-switch keys. -/
def isExtendedCode (s : Byte) : Bool :=
  s == 0x1F || s == 0x27 ||
  s == 0x6C || s == 0x69 || s == 0x7D || s == 0x7A || s == 0x75 || s == 0x6B || s == 0x72 || s == 0x74 || s == 0x71 ||
  s == 0x32 || s == 0x21

/-- The scan codes left to the catch-all rows 41 and 42 of R60. The rows before them take the same codes with
`B = 0` and with `B = 1`. -/
def isOrdinaryCode (e : Bool) (s : Byte) : Bool :=
  !isPrefixCode s && !isModifierCode s && !(e && isExtendedCode s)

/-- The check of an instruction. Every row but the two catch-alls takes its operands at every value. -/
def Instr.wellFormed : Instr → Bool
  | .breakKey e s => isOrdinaryCode e s
  | .makeKey e s => isOrdinaryCode e s
  | .pfxBreak _ _ | .pfxExt _ _ => true
  | .makeLShift _ | .makeRShift _ | .makeLAlt | .makeRAlt | .makeLCtrl | .makeRCtrl | .makeLGui | .makeRGui => true
  | .breakLShift _ | .breakRShift _ | .breakLAlt | .breakRAlt | .breakLCtrl | .breakRCtrl | .breakLGui | .breakRGui => true
  | .makeNavHome | .makeNavEnd | .makeNavPgUp | .makeNavPgDn | .makeNavUp | .makeNavLeft | .makeNavDown
  | .makeNavRight | .makeNavDel => true
  | .breakNavHome | .breakNavEnd | .breakNavPgUp | .breakNavPgDn | .breakNavUp | .breakNavLeft | .breakNavDown
  | .breakNavRight | .breakNavDel => true
  | .modeNext | .modePrev | .makeModeNextIgnored | .makeModePrevIgnored => true
  | .frame _ _ | .edge _ _ | .poll | .reset => true
  | .setMods _ | .setKey _ | .send => true
  | .modeIdentity _ _ | .modeDigraph _ _ | .modeWordSubstitute _ _ | .modeWordReverse _ _
  | .modeRandomInterject _ _ => true

end Sys2Proof
end

