-- ==== Sys2Proof/Decode.lean ====
section
/-! DEFINITION. The decoder and the encoder, from the formats of spec/30_encoding.md and the rows of its opcode map (R60). -/

namespace Sys2Proof

/-- Why a word is no instruction. -/
inductive DecodeError where
  /-- Transaction tag `11` (R65: "Tag `11` names no transaction; a model refuses it"). -/
  | reservedTag
  /-- Bits set where the format has none (a POLL or RESET with operands, a word wider than its format). -/
  | strayBits
  /-- Sink word op `11` (R64: "The word value `11` is never produced"). -/
  | reservedSinkOp
  /-- A `Send` word whose value field is not 0 (R64). -/
  | sendOperand
  /-- Mode index 5, 6 or 7 (R63: they "never occur"). -/
  | reservedModeIndex
deriving DecidableEq, Repr

/-- `v[hi:lo]` of a word, `n` bits from bit `lo` up (R9). -/
def field (v lo n : Nat) : Nat := v / 2 ^ lo % 2 ^ n

/-! ### The decode word (R59, R60) -/

/-- `W = B, E, s` (R59). -/
def decodeWordOf (b e : Bool) (s : Byte) : BitVec 10 := BitVec.ofBool b ++ BitVec.ofBool e ++ s

/-- `W[9]`. -/
def wordB (w : BitVec 10) : Bool := w.getLsbD 9

/-- `W[8]`. -/
def wordE (w : BitVec 10) : Bool := w.getLsbD 8

/-- `W[7:0]`. -/
def wordS (w : BitVec 10) : Byte := w.setWidth 8

/-- One row of the opcode map: its pattern, and the instruction it stands for given `B` and `E`. -/
structure OpcodeRow where
  mtch : BitVec 10
  mask : BitVec 10
  instr : Bool → Bool → Instr

/-- Rows 1 to 10 of R60. -/
def rowsMakeModifier : List OpcodeRow := [
  ⟨0x0F0, 0x0FF, fun b e => .pfxBreak b e⟩,
  ⟨0x0E0, 0x0FF, fun b e => .pfxExt b e⟩,
  ⟨0x012, 0x2FF, fun _ e => .makeLShift e⟩,
  ⟨0x059, 0x2FF, fun _ e => .makeRShift e⟩,
  ⟨0x011, 0x3FF, fun _ _ => .makeLAlt⟩,
  ⟨0x111, 0x3FF, fun _ _ => .makeRAlt⟩,
  ⟨0x014, 0x3FF, fun _ _ => .makeLCtrl⟩,
  ⟨0x114, 0x3FF, fun _ _ => .makeRCtrl⟩,
  ⟨0x11F, 0x3FF, fun _ _ => .makeLGui⟩,
  ⟨0x127, 0x3FF, fun _ _ => .makeRGui⟩]

/-- Rows 11 to 18 of R60. -/
def rowsBreakModifier : List OpcodeRow := [
  ⟨0x212, 0x2FF, fun _ e => .breakLShift e⟩,
  ⟨0x259, 0x2FF, fun _ e => .breakRShift e⟩,
  ⟨0x211, 0x3FF, fun _ _ => .breakLAlt⟩,
  ⟨0x311, 0x3FF, fun _ _ => .breakRAlt⟩,
  ⟨0x214, 0x3FF, fun _ _ => .breakLCtrl⟩,
  ⟨0x314, 0x3FF, fun _ _ => .breakRCtrl⟩,
  ⟨0x31F, 0x3FF, fun _ _ => .breakLGui⟩,
  ⟨0x327, 0x3FF, fun _ _ => .breakRGui⟩]

/-- Rows 19 to 27 of R60. -/
def rowsMakeNav : List OpcodeRow := [
  ⟨0x16C, 0x3FF, fun _ _ => .makeNavHome⟩,
  ⟨0x169, 0x3FF, fun _ _ => .makeNavEnd⟩,
  ⟨0x17D, 0x3FF, fun _ _ => .makeNavPgUp⟩,
  ⟨0x17A, 0x3FF, fun _ _ => .makeNavPgDn⟩,
  ⟨0x175, 0x3FF, fun _ _ => .makeNavUp⟩,
  ⟨0x16B, 0x3FF, fun _ _ => .makeNavLeft⟩,
  ⟨0x172, 0x3FF, fun _ _ => .makeNavDown⟩,
  ⟨0x174, 0x3FF, fun _ _ => .makeNavRight⟩,
  ⟨0x171, 0x3FF, fun _ _ => .makeNavDel⟩]

/-- Rows 28 to 36 of R60. -/
def rowsBreakNav : List OpcodeRow := [
  ⟨0x36C, 0x3FF, fun _ _ => .breakNavHome⟩,
  ⟨0x369, 0x3FF, fun _ _ => .breakNavEnd⟩,
  ⟨0x37D, 0x3FF, fun _ _ => .breakNavPgUp⟩,
  ⟨0x37A, 0x3FF, fun _ _ => .breakNavPgDn⟩,
  ⟨0x375, 0x3FF, fun _ _ => .breakNavUp⟩,
  ⟨0x36B, 0x3FF, fun _ _ => .breakNavLeft⟩,
  ⟨0x372, 0x3FF, fun _ _ => .breakNavDown⟩,
  ⟨0x374, 0x3FF, fun _ _ => .breakNavRight⟩,
  ⟨0x371, 0x3FF, fun _ _ => .breakNavDel⟩]

/-- Rows 37 to 40 of R60. -/
def rowsModeSwitch : List OpcodeRow := [
  ⟨0x332, 0x3FF, fun _ _ => .modeNext⟩,
  ⟨0x321, 0x3FF, fun _ _ => .modePrev⟩,
  ⟨0x132, 0x3FF, fun _ _ => .makeModeNextIgnored⟩,
  ⟨0x121, 0x3FF, fun _ _ => .makeModePrevIgnored⟩]

/-- Rows 1 to 40 of the opcode map, in order (R60). -/
def namedRows : List OpcodeRow :=
  rowsMakeModifier ++ rowsBreakModifier ++ rowsMakeNav ++ rowsBreakNav ++ rowsModeSwitch

/-- `(W & mask) = match` (R59). -/
def OpcodeRow.matches (r : OpcodeRow) (w : BitVec 10) : Bool := w &&& r.mask == r.mtch

/-- The operation of a decode word: the first named row that matches, else a catch-all row (R59, R60 rows 41, 42). -/
def decodeDecodeWord (w : BitVec 10) : Instr :=
  match namedRows.find? (fun r => r.matches w) with
  | some r => r.instr (wordB w) (wordE w)
  | none => if wordB w then .breakKey (wordE w) (wordS w) else .makeKey (wordE w) (wordS w)

/-! ### The decoder -/

/-- A transaction word (R65; the operands' places are the model's, log 15): tag in bits 1:0, `d` in bit 2, `t` above. -/
def decodeTransaction (v : Nat) : Except DecodeError Instr :=
  match field v 0 2 with
  | 0 => .ok (.edge (field v 2 1 == 1) (v / 2 ^ 3))
  | 1 => if v = 1 then .ok .poll else .error .strayBits
  | 2 => if v = 2 then .ok .reset else .error .strayBits
  | _ => .error .reservedTag

/-- A sink word `op[17:16], value[15:0]` (R64). -/
def decodeSinkOp (v : Nat) : Except DecodeError Instr :=
  match v / 2 ^ 16 with
  | 0 => .ok (.setMods (BitVec.ofNat 16 v))
  | 1 => .ok (.setKey (BitVec.ofNat 16 (field v 0 16)))
  | 2 => if field v 0 16 = 0 then .ok .send else .error .sendOperand
  | 3 => .error .reservedSinkOp
  | _ => .error .strayBits

/-- A mode word (R63): the index in bits 2:0, the event's `k` in bits 18:3 and `m` in bits 34:19 (log 15). -/
def decodeModeIndex (v : Nat) : Except DecodeError Instr :=
  let k : Keycode := BitVec.ofNat 16 (field v 3 16)
  let m : Mods := BitVec.ofNat 16 (field v 19 16)
  if 2 ^ 35 ≤ v then .error .strayBits else
  match field v 0 3 with
  | 0 => .ok (.modeIdentity k m)
  | 1 => .ok (.modeDigraph k m)
  | 2 => .ok (.modeWordSubstitute k m)
  | 3 => .ok (.modeWordReverse k m)
  | 4 => .ok (.modeRandomInterject k m)
  | _ => .error .reservedModeIndex

/-- The decoder, total on every word of every format; a word that is no instruction is rejected by name. -/
def decode (w : InWord) : Except DecodeError Instr :=
  match w.fmt with
  | .decodeWord => if w.bits < 2 ^ 10 then .ok (decodeDecodeWord (BitVec.ofNat 10 w.bits)) else .error .strayBits
  | .frame => .ok (.frame (BitVec.ofNat 11 (field w.bits 0 11)) (w.bits / 2 ^ 11))
  | .transaction => decodeTransaction w.bits
  | .sinkOp => decodeSinkOp w.bits
  | .modeIndex => decodeModeIndex w.bits

/-- The format of a word given by the number of its bits, as the opcode table gives them or in whole bytes (log 15). -/
def formatOfWidth (nbits : Nat) : Option Format :=
  match nbits with
  | 2 | 35 | 40 => some .transaction
  | 3 => some .modeIndex
  | 8 | 10 | 16 => some .decodeWord
  | 11 => some .frame
  | 18 | 24 => some .sinkOp
  | _ => none

/-- The instruction the decoder reads from a word of `nbits` bits numbered as spec/opcode_table.json numbers them. -/
def decodeTableWord (nbits w : Nat) : Option Instr :=
  match formatOfWidth nbits with
  | none => none
  | some f =>
    match decode ⟨f, w⟩ with
    | .ok i => some i
    | .error _ => none

/-! ### The encoder -/

/-- A decode word as an instruction word. -/
def decodeWordIn (b e : Bool) (s : Byte) : InWord := ⟨.decodeWord, (decodeWordOf b e s).toNat⟩

/-- A mode word as an instruction word. -/
def modeWordIn (idx : Nat) (k : Keycode) (m : Mods) : InWord :=
  ⟨.modeIndex, idx + k.toNat * 2 ^ 3 + m.toNat * 2 ^ 19⟩

/-- The word of an instruction, written from the tables of R56, R60, R63, R64 and R65. -/
def encode : Instr → InWord
  | .pfxBreak b e => decodeWordIn b e 0xF0
  | .pfxExt b e => decodeWordIn b e 0xE0
  | .makeLShift e => decodeWordIn false e 0x12
  | .makeRShift e => decodeWordIn false e 0x59
  | .makeLAlt => decodeWordIn false false 0x11
  | .makeRAlt => decodeWordIn false true 0x11
  | .makeLCtrl => decodeWordIn false false 0x14
  | .makeRCtrl => decodeWordIn false true 0x14
  | .makeLGui => decodeWordIn false true 0x1F
  | .makeRGui => decodeWordIn false true 0x27
  | .breakLShift e => decodeWordIn true e 0x12
  | .breakRShift e => decodeWordIn true e 0x59
  | .breakLAlt => decodeWordIn true false 0x11
  | .breakRAlt => decodeWordIn true true 0x11
  | .breakLCtrl => decodeWordIn true false 0x14
  | .breakRCtrl => decodeWordIn true true 0x14
  | .breakLGui => decodeWordIn true true 0x1F
  | .breakRGui => decodeWordIn true true 0x27
  | .makeNavHome => decodeWordIn false true 0x6C
  | .makeNavEnd => decodeWordIn false true 0x69
  | .makeNavPgUp => decodeWordIn false true 0x7D
  | .makeNavPgDn => decodeWordIn false true 0x7A
  | .makeNavUp => decodeWordIn false true 0x75
  | .makeNavLeft => decodeWordIn false true 0x6B
  | .makeNavDown => decodeWordIn false true 0x72
  | .makeNavRight => decodeWordIn false true 0x74
  | .makeNavDel => decodeWordIn false true 0x71
  | .breakNavHome => decodeWordIn true true 0x6C
  | .breakNavEnd => decodeWordIn true true 0x69
  | .breakNavPgUp => decodeWordIn true true 0x7D
  | .breakNavPgDn => decodeWordIn true true 0x7A
  | .breakNavUp => decodeWordIn true true 0x75
  | .breakNavLeft => decodeWordIn true true 0x6B
  | .breakNavDown => decodeWordIn true true 0x72
  | .breakNavRight => decodeWordIn true true 0x74
  | .breakNavDel => decodeWordIn true true 0x71
  | .modeNext => decodeWordIn true true 0x32
  | .modePrev => decodeWordIn true true 0x21
  | .makeModeNextIgnored => decodeWordIn false true 0x32
  | .makeModePrevIgnored => decodeWordIn false true 0x21
  | .breakKey e s => decodeWordIn true e s
  | .makeKey e s => decodeWordIn false e s
  | .frame levels t => ⟨.frame, levels.toNat + t * 2 ^ 11⟩
  | .edge d t => ⟨.transaction, d.toNat * 2 ^ 2 + t * 2 ^ 3⟩
  | .poll => ⟨.transaction, 1⟩
  | .reset => ⟨.transaction, 2⟩
  | .setMods m => ⟨.sinkOp, m.toNat⟩
  | .setKey k => ⟨.sinkOp, 2 ^ 16 + k.toNat⟩
  | .send => ⟨.sinkOp, 2 * 2 ^ 16⟩
  | .modeIdentity k m => modeWordIn 0 k m
  | .modeDigraph k m => modeWordIn 1 k m
  | .modeWordSubstitute k m => modeWordIn 2 k m
  | .modeWordReverse k m => modeWordIn 3 k m
  | .modeRandomInterject k m => modeWordIn 4 k m

end Sys2Proof
end

