-- ==== Sys2Proof/Config.lean ====
section
/-! DEFINITION. The parameters of spec/00_scope.md R6, their constraints (R7), and the values the spec leaves open. -/

namespace Sys2Proof

/-- Whose modifiers a digraph rule's output starts from (spec/44_mode_engine.md R111, field `src`). -/
inductive DigraphSrc where
  | prev
  | cur
deriving DecidableEq, Repr

/-- One record of `DIGRAPH_RULES` (R111). -/
structure DigraphRule where
  /-- `none` is the rule's ANY. -/
  prevKey  : Option Keycode
  prevMask : Mods
  prevVal  : Mods
  curKey   : Keycode
  curMask  : Mods
  curVal   : Mods
  /-- Synthetic backspaces: `true` is 1, `false` is 0. -/
  bs       : Bool
  outKey   : Keycode
  src      : DigraphSrc
  keep     : Mods
  force    : Mods
  flip     : Mods
deriving DecidableEq, Repr

/-- The mask of each modifier key (R61; the positions are a parameter, R6). -/
structure ModLayout where
  lctrl  : Mods
  lshift : Mods
  lalt   : Mods
  lgui   : Mods
  rctrl  : Mods
  rshift : Mods
  ralt   : Mods
  rgui   : Mods
deriving DecidableEq, Repr

/-- `NAVMAP`: the keycode of each extended navigation key (spec/42_decoder.md R92). -/
structure NavMap where
  home  : Keycode
  end_  : Keycode
  pgup  : Keycode
  pgdn  : Keycode
  up    : Keycode
  left  : Keycode
  down  : Keycode
  right : Keycode
  del   : Keycode
deriving DecidableEq, Repr

/-- The parameters of R6 (log 1). `WS_WORD_LEN` and `DICT_SIZE` are the lengths of their tables. -/
structure Config where
  qsize              : Nat
  idleTimeoutMs      : Nat
  frameEdges         : Nat
  timeWidth          : Nat
  keymapSize         : Nat
  keymap             : List Keycode
  navmap             : NavMap
  numModes           : Nat
  word               : List Keycode
  wsCountMax         : Nat
  wrCap              : Nat
  dict               : List (List Keycode)
  dictFirstPopulated : Nat
  dictWordLen        : Nat
  digraphRules       : List DigraphRule
  kcBackspace        : Keycode
  kcSpace            : Keycode
  kcEnter            : Keycode
  kcPeriod           : Keycode
  kcComma            : Keycode
  kcAlnumLo          : Keycode
  kcAlnumHi          : Keycode
  clearContextOnSwitch : Bool
  mods               : ModLayout
deriving DecidableEq, Repr

namespace Config

/-- `QCAP = QSIZE - 1` (R6). -/
def qcap (c : Config) : Nat := c.qsize - 1

/-- `WS_WORD_LEN` (R6). -/
def wsWordLen (c : Config) : Nat := c.word.length

/-- `DICT_SIZE` (R6). -/
def dictSize (c : Config) : Nat := c.dict.length

/-- The constraints of R7, and `KEYMAP` having KEYMAP_SIZE entries (R6, R102; the other tables' sizes are their lengths). -/
def wf (c : Config) : Bool :=
  decide (2 ≤ c.qsize) && decide (c.idleTimeoutMs < 2 ^ c.timeWidth) && decide (c.keymap.length = c.keymapSize) &&
  decide (c.keymap.getD 0 0 = 0) &&
  decide (c.word.length < c.wsCountMax) && decide (c.dictFirstPopulated ≤ c.dict.length) &&
  (c.dict.take c.dictFirstPopulated).all (fun entry => (entry.take c.dictWordLen).all (fun k => k == 0)) &&
  [c.kcBackspace, c.kcSpace, c.kcEnter, c.kcPeriod, c.kcComma, c.kcAlnumLo, c.kcAlnumHi].all (fun k => k != 0)

/-- Every modifier key has one bit of its own among bits 7:0 (R61, R22). -/
def modsOk (m : ModLayout) : Bool :=
  let bits := [m.lctrl, m.lshift, m.lalt, m.lgui, m.rctrl, m.rshift, m.ralt, m.rgui]
  bits.all (fun b => (List.range 8).any (fun i => b == 1#16 <<< i)) && decide bits.Nodup

/-- What the rules suppose of the parameters beside R7's list: a frame has at least one edge, the modes are
those of R23, a draw has a value to take, and the modifiers have bits as R61 says (log 17). -/
def wfModel (c : Config) : Bool :=
  decide (1 ≤ c.frameEdges) && decide (1 ≤ c.numModes ∧ c.numModes ≤ 5) && decide (0 < c.dict.length) && modsOk c.mods

/-- FREE VALUE (R121, log 10): what the external random source gives where the environment's list of draws
is empty. Nothing is known of it. -/
opaque freeDraw : Nat → Nat

/-- OPEN (R122, D24, log 9): the letters of the populated dictionary entries of the reset configuration. -/
opaque openDictLetter : Nat → Nat → Keycode

/-- OPEN (R6, D24, log 9): `DICT_WORD_LEN` of the reset configuration. -/
opaque openDictWordLen : Nat

end Config

end Sys2Proof
end

