-- ==== Sys2Proof/Machine/Reference.lean ====
section
/-! DEFINITION. The default and reference values of the parameters (spec/00_scope.md R6 and R8, spec/43_translator.md R103 and R104, spec/42_decoder.md R92, spec/44_mode_engine.md R111, spec/30_encoding.md R61). The tables are the spec's general knowledge (log 2). -/

namespace Sys2Proof.Machine

/-- Indices 00 to 0F of the reference `KEYMAP` (R103). -/
def referenceKeymap0 : List Keycode :=
  [0x0000, 0x0042, 0x0000, 0x003E, 0x003C, 0x003A, 0x003B, 0x0045, 0x0000, 0x0043, 0x0041, 0x003F, 0x003D, 0x002B, 0x0035, 0x0000]

/-- Indices 10 to 1F of the reference `KEYMAP` (R103). -/
def referenceKeymap1 : List Keycode :=
  [0x0000, 0x0000, 0x0000, 0x0000, 0x0000, 0x0014, 0x001E, 0x0000, 0x0000, 0x0000, 0x001D, 0x0016, 0x0004, 0x001A, 0x001F, 0x0000]

/-- Indices 20 to 2F of the reference `KEYMAP` (R103). -/
def referenceKeymap2 : List Keycode :=
  [0x0000, 0x0006, 0x001B, 0x0007, 0x0008, 0x0021, 0x0020, 0x0000, 0x0000, 0x002C, 0x0019, 0x0009, 0x0017, 0x0015, 0x0022, 0x0000]

/-- Indices 30 to 3F of the reference `KEYMAP` (R103). -/
def referenceKeymap3 : List Keycode :=
  [0x0000, 0x0011, 0x0005, 0x000B, 0x000A, 0x001C, 0x0023, 0x0000, 0x0000, 0x0000, 0x0010, 0x000D, 0x0018, 0x0024, 0x0025, 0x0000]

/-- Indices 40 to 4F of the reference `KEYMAP` (R103). -/
def referenceKeymap4 : List Keycode :=
  [0x0000, 0x0036, 0x000E, 0x000C, 0x0012, 0x0027, 0x0026, 0x0000, 0x0000, 0x0037, 0x0038, 0x000F, 0x0033, 0x0013, 0x002D, 0x0000]

/-- Indices 50 to 5F of the reference `KEYMAP` (R103). -/
def referenceKeymap5 : List Keycode :=
  [0x0000, 0x0000, 0x0034, 0x0000, 0x002F, 0x002E, 0x0000, 0x0000, 0x0039, 0x0000, 0x0028, 0x0030, 0x0000, 0x0031, 0x0000, 0x0000]

/-- Indices 60 to 6F of the reference `KEYMAP` (R103). -/
def referenceKeymap6 : List Keycode :=
  [0x0000, 0x0064, 0x0000, 0x0000, 0x0000, 0x0000, 0x002A, 0x0000, 0x0000, 0x0059, 0x0000, 0x005C, 0x005F, 0x0000, 0x0000, 0x0000]

/-- Indices 70 to 7F of the reference `KEYMAP` (R103). -/
def referenceKeymap7 : List Keycode :=
  [0x0062, 0x0063, 0x005A, 0x005D, 0x005E, 0x0060, 0x0029, 0x0053, 0x0044, 0x0057, 0x005B, 0x0056, 0x0055, 0x0061, 0x0047, 0x0000]

/-- Indices 80 to 83 of the reference `KEYMAP` (R103). -/
def referenceKeymap8 : List Keycode :=
  [0x0000, 0x0000, 0x0000, 0x0040]

/-- The reference `KEYMAP`: 132 entries, every index R103 does not list being 0 ("no key"). -/
def referenceKeymap : List Keycode :=
  referenceKeymap0 ++ referenceKeymap1 ++ referenceKeymap2 ++ referenceKeymap3 ++ referenceKeymap4 ++
  referenceKeymap5 ++ referenceKeymap6 ++ referenceKeymap7 ++ referenceKeymap8

/-- The reference `NAVMAP` (R92). -/
def referenceNavmap : NavMap where
  home  := 0x004A
  end_  := 0x004D
  pgup  := 0x004B
  pgdn  := 0x004E
  up    := 0x0052
  left  := 0x0050
  down  := 0x0051
  right := 0x004F
  del   := 0x004C

/-- The modifier bits of R61 (D7). -/
def referenceMods : ModLayout where
  lctrl  := 0x0001
  lshift := 0x0002
  lalt   := 0x0004
  lgui   := 0x0008
  rctrl  := 0x0010
  rshift := 0x0020
  ralt   := 0x0040
  rgui   := 0x0080

/-- DG1, the one reference digraph rule (R111): R then Z, neither with right Alt. -/
def referenceDg1 : DigraphRule where
  prevKey  := some 0x0015
  prevMask := 0x0040
  prevVal  := 0
  curKey   := 0x001D
  curMask  := 0x0040
  curVal   := 0
  bs       := true
  outKey   := 0x001D
  src      := .prev
  keep     := 0x0022
  force    := 0x0040
  flip     := 0

/-- One entry of the reset configuration's `DICT`: the first eight are empty, the letters of the others are
OPEN (R122, R7, log 9). -/
def referenceDictEntry (r : Nat) : List Keycode :=
  if r < 8 then [] else (List.range Config.openDictWordLen).map (Config.openDictLetter r)

/-- `DICT` of the reset configuration: 16 entries (R122, log 9). -/
def referenceDict : List (List Keycode) := (List.range 16).map referenceDictEntry

/-- The defaults of R6 with the reference configuration of R8. -/
def referenceConfig : Config where
  qsize              := 45
  idleTimeoutMs      := 250
  frameEdges         := 11
  timeWidth          := 32
  keymapSize         := 132
  keymap             := referenceKeymap
  navmap             := referenceNavmap
  numModes           := 5
  word               := [0x000B, 0x0012, 0x0007, 0x0012, 0x0015]
  wsCountMax         := 6
  wrCap              := 32
  dict               := referenceDict
  dictFirstPopulated := 8
  dictWordLen        := Config.openDictWordLen
  digraphRules       := [referenceDg1]
  kcBackspace        := 0x002A
  kcSpace            := 0x002C
  kcEnter            := 0x0028
  kcPeriod           := 0x0037
  kcComma            := 0x0036
  kcAlnumLo          := 0x0004
  kcAlnumHi          := 0x0027
  clearContextOnSwitch := false
  mods               := referenceMods

end Sys2Proof.Machine
end

