-- ==== Sys2Proof/Machine/State.lean ====
section
/-! DEFINITION. The state of the block (spec/10_state.md R12), what its environment holds beside it, the reasons a step can stop, and the state after reset (R35). -/

namespace Sys2Proof.Machine

/-- One entry of the WordReverse buffer (R26). -/
structure WrEntry where
  key  : Keycode
  mods : Mods
deriving DecidableEq, Repr

/-- The HID sink as R31 lets a model keep it: its modifier field, its key slot, and the reports sent, oldest first. -/
structure Sink where
  mods    : Mods
  key     : Keycode
  reports : List (Mods × Keycode)
deriving DecidableEq, Repr

/-- The whole state. The first group is the block's own (R12); the second is the constants and what stands
outside the block (INVENTORY.md, State). -/
structure State where
  -- BitFramer (R15 to R17)
  bitCount        : Nat
  shiftRegister   : Byte
  lastEdgeTime    : Nat
  -- FrameQueue (R18 to R20)
  buf             : List Host.Cell
  head            : Nat
  tail            : Nat
  -- ScanCodeDecoder (R21, R22)
  breakPending    : Bool
  extendedPending : Bool
  modifierMask    : Mods
  -- ModeEngine (R23 to R26)
  modeIndex       : BitVec 3
  dgPrevKey       : Keycode
  dgPrevMods      : Mods
  wsCount         : Nat
  wrCount         : Nat
  wrBuf           : List (Nat × WrEntry)
  -- the parameters, constants of the machine (R6, R30, log 1)
  cfg             : Config
  -- the words the environment presents, next first (R65, R139, log 3)
  presented       : List InWord
  -- the random source: the values it will give, next first, and the model's own counter of free draws (R121, log 10)
  draws           : List Nat
  drawCount       : Nat
  -- the block's output (R64) and the sink it reaches (R31, log 11)
  out             : List SinkOp
  sink            : Sink
  -- the results POLL returned to its caller, oldest first (R82, log 12)
  polls           : List Bool
deriving DecidableEq, Repr

/-- Why the machine stops with a fault. The spec gives the block no fault (R125): each of these is raised only in
a state that no run reaches, and each is safe. -/
inductive Fault where
  /-- Raised by a pop that reads a `buf` entry never written (D38, U12). Safe: R33 item 2 rules it out. -/
  | bufEntryUnwritten
  /-- Raised by a WordReverse boundary that reads a `wr_buf` entry never written (D38, U12). Safe: R33 item 7. -/
  | wrEntryUnwritten
  /-- Raised by a queue access at an index of QSIZE or more, which does not exist (R37). Safe: R33 item 1. -/
  | bufIndexOutOfRange
  /-- Raised by a WordReverse access at an index of WR_CAP or more, which does not exist (R37). Safe: R33 item 6. -/
  | wrIndexOutOfRange
  /-- Raised by the mode dispatch at `mode_index` 5 to 7 (U18: "A model that meets them may fault"). Safe: R33 item 6. -/
  | modeIndexUnreachable
deriving DecidableEq, Repr

/-- Why the model has no move. -/
inductive Refusal where
  /-- Raised by an arm of `exec` whose instruction has no meaning yet (none has been left so). Safe. -/
  | notModelled (mnemonic : String)
  /-- Raised by `step` on a presented word that is no instruction: tag `11` and the reserved encodings (R65, R66,
  U17, U18). Safe: the environment must not present one. -/
  | undecodable (e : DecodeError)
  /-- Raised by a draw outside `[0, DICT_SIZE)` (U8, R139). Safe: the environment must not give one. -/
  | drawOutOfRange
  /-- Raised inside POLL if a decode word stood for no row of the opcode map; the decoder never gives one
  (Laws/Decoder.lean). Safe. -/
  | notADecodeRow
deriving DecidableEq, Repr

/-- The state right after RESET in a machine built with the parameters `c` (R35, R143). The arrays have no entry
written (log 6); nothing has been sent, drawn or presented yet (log 3, 10, 11, 12). -/
def State.resetWith (c : Config) : State where
  bitCount        := 0
  shiftRegister   := 0x00
  lastEdgeTime    := 0
  buf             := []
  head            := 0
  tail            := 0
  breakPending    := false
  extendedPending := false
  modifierMask    := 0x0000
  modeIndex       := 0
  dgPrevKey       := 0x0000
  dgPrevMods      := 0x0000
  wsCount         := 0
  wrCount         := 0
  wrBuf           := []
  cfg             := c
  presented       := []
  draws           := []
  drawCount       := 0
  out             := []
  sink            := { mods := 0, key := 0, reports := [] }
  polls           := []

/-- The state right after reset (R35), in the reference configuration (R8). -/
def State.reset : State := State.resetWith referenceConfig

end Sys2Proof.Machine
end

