-- ==== Sys2Proof/Machine/Ops.lean ====
section
/-! DEFINITION. The named operations over storage, the sink, the queue and the random source (spec/00_scope.md R10). -/

namespace Sys2Proof.Machine

/-- What an operation of a transaction answers: a value, or the reason the transaction stops. -/
abbrev Answer (α : Type) := Host.Outcome α Fault Refusal

/-- Statements in order: run `x`, then `f` on what it answers. -/
def andThen {α β : Type} (x : Answer α) (f : α → Answer β) : Answer β :=
  match x with
  | .next a => f a
  | .fault r => .fault r
  | .refused r => .refused r

/-! ### Sparse storage -/

/-- The entry at index `i`, if one was ever written. -/
def Memory.read {α : Type} : Memory α → Nat → Option α
  | [], _ => none
  | (j, v) :: rest, i => if j = i then some v else Memory.read rest i

/-- Write entry `i`, keeping the canonical form. -/
def Memory.write {α : Type} : Memory α → Nat → α → Memory α
  | [], i, v => [(i, v)]
  | (j, w) :: rest, i, v =>
    if i < j then (i, v) :: (j, w) :: rest
    else if i = j then (i, v) :: rest
    else (j, w) :: Memory.write rest i v

/-- The canonical form: indices strictly rising. -/
def Memory.wf {α : Type} : Memory α → Bool
  | [] => true
  | [_] => true
  | (i, _) :: (j, w) :: rest => decide (i < j) && Memory.wf ((j, w) :: rest)

/-- `QRead(i)` (R10): queue storage entry `i`, which exists for `i < QSIZE` (R37). -/
def qRead (i : Nat) (s : State) : Answer Byte :=
  if i < s.cfg.qsize then
    match Memory.read s.buf i with
    | some code => .next code
    | none => .fault .bufEntryUnwritten
  else .fault .bufIndexOutOfRange

/-- `QWrite(i, v)` (R10). -/
def qWrite (i : Nat) (v : Byte) (s : State) : Answer State :=
  if i < s.cfg.qsize then .next { s with buf := Memory.write s.buf i v } else .fault .bufIndexOutOfRange

/-- `BufRead(i)` (R10): WordReverse buffer entry `i`, which exists for `i < WR_CAP`. -/
def bufRead (i : Nat) (s : State) : Answer WrEntry :=
  if i < s.cfg.wrCap then
    match Memory.read s.wrBuf i with
    | some x => .next x
    | none => .fault .wrEntryUnwritten
  else .fault .wrIndexOutOfRange

/-- `BufWrite(i, (k, m))` (R10). -/
def bufWrite (i : Nat) (x : WrEntry) (s : State) : Answer State :=
  if i < s.cfg.wrCap then .next { s with wrBuf := Memory.write s.wrBuf i x } else .fault .wrIndexOutOfRange

/-- `BufRead` of entries `i`, `i + 1`, …, `n` of them, in order. -/
def bufReadFrom (s : State) : Nat → Nat → Answer (List WrEntry)
  | _, 0 => .next []
  | i, n + 1 => andThen (bufRead i s) fun x => andThen (bufReadFrom s (i + 1) n) fun xs => .next (x :: xs)

/-! ### The sink (R64, R31, R53) -/

/-- What one operation does at the sink (R64, R31): `Send` transmits the report as it now stands. -/
def Sink.apply (k : Sink) : SinkOp → Sink
  | .setMods m => { k with mods := m }
  | .setKey c => { k with key := c }
  | .send => { k with reports := k.reports ++ [(k.mods, k.key)] }

/-- `Sink(op)` for each operation in order: appended to the output stream and applied at the sink at once (R53, R135). -/
def sinkAll (ops : List SinkOp) (s : State) : State :=
  { s with out := s.out ++ ops, sink := ops.foldl Sink.apply s.sink }

/-- The five operations of `EMIT(k, m)` (R105). -/
def emitOps (k : Keycode) (m : Mods) : List SinkOp := [.setMods m, .setKey k, .send, .setKey 0, .send]

/-- `EMIT(k, m)` (R105). -/
def emit (k : Keycode) (m : Mods) (s : State) : State := sinkAll (emitOps k m) s

/-- `EMIT` for each pair `(k, m)` in order. -/
def emitAll (keys : List (Keycode × Mods)) (s : State) : State :=
  sinkAll (keys.flatMap fun p => emitOps p.1 p.2) s

/-! ### The FrameQueue (R79, R80) -/

/-- `push(code) -> Bool` (R79). -/
def push (code : Byte) (s : State) : Answer (Bool × State) :=
  let next := (s.head + 1) % s.cfg.qsize
  if next = s.tail then .next (false, s)
  else andThen (qWrite s.head code s) fun s1 => .next (true, { s1 with head := next })

/-- `pop() -> Option(code)` (R80). -/
def pop (s : State) : Answer (Option Byte × State) :=
  if s.head = s.tail then .next (none, s)
  else andThen (qRead s.tail s) fun code => .next (some code, { s with tail := (s.tail + 1) % s.cfg.qsize })

/-! ### The random source (R121, log 10) -/

/-- `Draw()`: the next value the environment gives, or, where it has listed none, a free value in range. A value
out of range is refused (U8). -/
def draw (s : State) : Answer (Nat × State) :=
  let r := match s.draws with
    | r :: _ => r
    | [] => Config.freeDraw s.drawCount % s.cfg.dictSize
  let s1 := match s.draws with
    | _ :: rest => { s with draws := rest }
    | [] => { s with drawCount := s.drawCount + 1 }
  if r < s.cfg.dictSize then .next (r, s1) else .refused .drawOutOfRange

/-! ### Contexts and returned results -/

/-- `clear_contexts()` (R108). -/
def clearContexts (s : State) : State :=
  { s with dgPrevKey := 0x0000, dgPrevMods := 0x0000, wsCount := 0, wrCount := 0 }

/-- `return v` of POLL, to its caller (R10, R82). -/
def returnConsumed (v : Bool) (s : State) : State := { s with polls := s.polls ++ [v] }

end Sys2Proof.Machine
end

