-- ==== Sys2Proof/Machine/Operands.lean ====
section
/-! DEFINITION. The operand forms: sampled bits, table lookups, key classes, digraph matching, the letters of the word modes. -/

namespace Sys2Proof.Machine

/-- `v[i] = b` in an 8-bit register (R73). -/
def setBit (v : Byte) (i : Nat) (b : Bool) : Byte :=
  if b then v ||| (1#8 <<< i) else v &&& ~~~(1#8 <<< i)

/-- `(t - last_edge_time) mod 2^TIME_WIDTH` (R70). -/
def elapsed (width last t : Nat) : Nat := (t + 2 ^ width - last % 2 ^ width) % 2 ^ width

/-- The modifier bit a modifier scan code selects, `modbit(E, s)` (R88); `none` where the code is no modifier. -/
def modbit (l : ModLayout) (e : Bool) (s : Byte) : Option Mods :=
  if s = 0x12 then some l.lshift
  else if s = 0x59 then some l.rshift
  else if s = 0x11 then some (if e then l.ralt else l.lalt)
  else if s = 0x14 then some (if e then l.rctrl else l.lctrl)
  else if s = 0x1F ∧ e = true then some l.lgui
  else if s = 0x27 ∧ e = true then some l.rgui
  else none

/-- `SHIFT_MASK = LSHIFT | RSHIFT` (R61). -/
def shiftMask (l : ModLayout) : Mods := l.lshift ||| l.rshift

/-- `translate(s)` (R101): an index of KEYMAP_SIZE or more yields "no key". -/
def translateCode (c : Config) (s : Byte) : Keycode :=
  if c.keymapSize ≤ s.toNat then 0x0000 else c.keymap.getD s.toNat 0x0000

/-- `is_alnum(k)` (R104). -/
def isAlnum (c : Config) (k : Keycode) : Bool :=
  decide (c.kcAlnumLo.toNat ≤ k.toNat) && decide (k.toNat ≤ c.kcAlnumHi.toNat)

/-- The boundary keys of RandomInterject (R123): by keycode only. -/
def isSentenceKey (c : Config) (k : Keycode) : Bool :=
  k == c.kcSpace || k == c.kcEnter || k == c.kcPeriod || k == c.kcComma

/-- `matches(r, pk, pm, k, m)` (R111). -/
def digraphMatches (r : DigraphRule) (pk : Keycode) (pm : Mods) (k : Keycode) (m : Mods) : Bool :=
  (match r.prevKey with
    | none => true
    | some x => pk == x && (pm &&& r.prevMask) == r.prevVal) &&
  k == r.curKey && (m &&& r.curMask) == r.curVal

/-- The output mask of a digraph rule: `((src & keep) | force) ^ flip` (R111, R112). -/
def digraphMask (r : DigraphRule) (pm m : Mods) : Mods :=
  (((match r.src with | .prev => pm | .cur => m) &&& r.keep) ||| r.force) ^^^ r.flip

/-- The `EMIT`s of one Digraph event (R112): of the first rule that matches, or the key unchanged. -/
def digraphKeys (c : Config) (pk : Keycode) (pm : Mods) (k : Keycode) (m : Mods) : List (Keycode × Mods) :=
  match c.digraphRules.find? (fun r => digraphMatches r pk pm k m) with
  | some r => (if r.bs then [(c.kcBackspace, 0x0000)] else []) ++ [(r.outKey, digraphMask r pm m)]
  | none => [(k, m)]

/-- `WORD[i]` (R36). -/
def wordLetter (c : Config) (i : Nat) : Keycode := c.word.getD i 0x0000

/-- The letters of `WORD` from index `n` on, each with the mask `m` (R116). -/
def wordRest (c : Config) (n : Nat) (m : Mods) : List (Keycode × Mods) := (c.word.drop n).map fun k => (k, m)

/-- `DICT[r][j]`; an entry shorter than DICT_WORD_LEN is filled with 0 (R122, log 9). -/
def dictLetter (c : Config) (r j : Nat) : Keycode := (c.dict.getD r []).getD j 0x0000

/-- The letters of dictionary entry `r` up to its terminator (R122, R123). -/
def dictWord (c : Config) (r : Nat) : List Keycode :=
  ((List.range c.dictWordLen).map (dictLetter c r)).takeWhile (fun k => k != 0)

/-- The letters a WordReverse boundary replays (R120): last first, each with the shift bits of the letter whose
position it takes and the other bits of its own. -/
def replayKeys (l : ModLayout) (xs : List WrEntry) : List (Keycode × Mods) :=
  List.zipWith (fun r p => (r.key, (p.mods &&& shiftMask l) ||| (r.mods &&& ~~~(shiftMask l)))) xs.reverse xs

end Sys2Proof.Machine
end

