-- ==== Sys2Proof/Machine/Framer.lean ====
section
/-! DEFINITION. The BitFramer: EDGE (spec/40_bitframer.md R69 to R75) and the FRAME form (spec/30_encoding.md R56, R68). -/

namespace Sys2Proof.Machine

/-- The frame in progress as the edge finds it: abandoned after an idle gap longer than IDLE_TIMEOUT_MS (R70, R71). -/
def frameAtEdge (now : Nat) (s : State) : Nat × Byte :=
  if elapsed s.cfg.timeWidth s.lastEdgeTime now > s.cfg.idleTimeoutMs then (0, 0x00)
  else (s.bitCount, s.shiftRegister)

/-- The register after the level `d` is sampled at edge index `bc`: only the data bits, edges 1 to 8, are stored
(R73, R74). -/
def sampleBit (bc : Nat) (sr : Byte) (d : Bool) : Byte :=
  if 1 ≤ bc ∧ bc ≤ 8 then setBit sr (bc - 1) d else sr

/-- The end of an edge: `bc` and `sr` as they are after it. The last edge of a frame pushes and starts anew
(R75); the push's result is not used. -/
def finishEdge (bc : Nat) (sr : Byte) (s : State) : Answer State :=
  if bc = s.cfg.frameEdges then
    andThen (push sr s) fun r => .next { r.2 with bitCount := 0, shiftRegister := 0x00 }
  else .next { s with bitCount := bc, shiftRegister := sr }

/-- EDGE(d, t) (R69). `t` is TIME_WIDTH bits wide (log 14). -/
def edge (d : Bool) (t : Nat) (s : State) : Answer State :=
  let now := t % 2 ^ s.cfg.timeWidth
  let f := frameAtEdge now s
  finishEdge (f.1 + 1) (sampleBit f.1 f.2 d) { s with lastEdgeTime := now }

/-- EDGE of the transaction table (R65, R69). -/
def execEdge (d : Bool) (t : Nat) (s : State) : Answer State := edge d t s

/-- EDGE transactions at time `t`, one for each level, in order. -/
def edges : List Bool → Nat → State → Answer State
  | [], _, s => .next s
  | d :: ds, t, s => andThen (edge d t s) fun s1 => edges ds t s1

/-- The eleven levels of a frame word in arrival order (R56). -/
def frameLevels (levels : BitVec 11) : List Bool := (List.range 11).map fun i => levels.getLsbD (10 - i)

/-- FRAME: eleven EDGE transactions carrying the levels in arrival order (R68, log 5). -/
def execFrame (levels : BitVec 11) (t : Nat) (s : State) : Answer State := edges (frameLevels levels) t s

end Sys2Proof.Machine
end

