-- ==== Sys2Proof/Machine/Flags.lean ====
section
/-! DEFINITION. The flags: the pending prefixes (spec/42_decoder.md R85 to R87) and the live modifier mask (R89, R90). -/

namespace Sys2Proof.Machine

/-- `break_pending <- true` (R86). -/
def setBreak (s : State) : State := { s with breakPending := true }

/-- `extended_pending <- true` (R87). -/
def setExtended (s : State) : State := { s with extendedPending := true }

/-- Both flags cleared, as after every terminal scan code (R85). -/
def clearFlags (s : State) : State := { s with breakPending := false, extendedPending := false }

/-- The mask with a modifier's bit set (R89). -/
def maskPressed (mask bit : Mods) : Mods := mask ||| bit

/-- The mask with a modifier's bit cleared (R90). -/
def maskReleased (mask bit : Mods) : Mods := mask &&& ~~~bit

/-- A modifier change: the new mask is stored and pushed to the sink (R89, R90, D10). -/
def changeMask (m : Mods) (s : State) : State :=
  sinkAll [.setMods m, .send] { s with modifierMask := m }

end Sys2Proof.Machine
end

