-- ==== Sys2Proof/Machine/Modes.lean ====
section
/-! DEFINITION. The ModeEngine (spec/44_mode_engine.md R105 to R124): the five modes and the dispatch. -/

namespace Sys2Proof.Machine

/-- identity(k, m) (R110). -/
def identity (k : Keycode) (m : Mods) (s : State) : Answer State := .next (emit k m s)

/-- digraph(k, m) (R112); the raw event becomes the previous one (R113). -/
def digraph (k : Keycode) (m : Mods) (s : State) : Answer State :=
  .next (emitAll (digraphKeys s.cfg s.dgPrevKey s.dgPrevMods k m) { s with dgPrevKey := k, dgPrevMods := m })

/-- word_substitute(k, m): backspace (R114), a letter or digit (R115), a boundary key (R116). DESIGN CHOICE: backspace is
tested first, which matters only where KC_BACKSPACE lies in the alphanumeric range (log 22). -/
def wordSubstitute (k : Keycode) (m : Mods) (s : State) : Answer State :=
  let c := s.wsCount
  let plain := m &&& ~~~s.cfg.mods.ralt
  if k = s.cfg.kcBackspace then .next (emit k m { s with wsCount := c - 1 })
  else if isAlnum s.cfg k then
    let s1 := { s with wsCount := min (c + 1) s.cfg.wsCountMax }
    if c < s.cfg.wsWordLen then .next (emit (wordLetter s.cfg c) plain s1) else .next (emit k m s1)
  else
    let flush := if 0 < c then wordRest s.cfg c plain else []
    .next (emitAll (flush ++ [(k, m)]) { s with wsCount := 0 })

/-- word_reverse(k, m): backspace (R117), a letter or digit (R118, R119), a boundary key (R120). DESIGN CHOICE: backspace
is tested first, as in word_substitute (log 22). -/
def wordReverse (k : Keycode) (m : Mods) (s : State) : Answer State :=
  let n := s.wrCount
  if k = s.cfg.kcBackspace then .next (emit k m { s with wrCount := n - 1 })
  else if isAlnum s.cfg k then
    if n < s.cfg.wrCap then
      andThen (bufWrite n { key := k, mods := m } s) fun s1 => .next (emit k m { s1 with wrCount := n + 1 })
    else .next (emit k m s)
  else
    andThen (bufReadFrom s 0 n) fun xs =>
      .next (emitAll (List.replicate n (s.cfg.kcBackspace, 0x0000) ++ replayKeys s.cfg.mods xs ++ [(k, m)])
        { s with wrCount := 0 })

/-- random_interject(k, m): a boundary key draws a word (R123), any other key passes (R124). -/
def randomInterject (k : Keycode) (m : Mods) (s : State) : Answer State :=
  if isSentenceKey s.cfg k then
    andThen (draw s) fun p =>
      .next (emitAll ((s.cfg.kcSpace, 0x0000) :: (dictWord s.cfg p.1).map (fun l => (l, s.cfg.mods.lshift)) ++ [(k, m)])
        p.2)
  else .next (emit k m s)

/-- One event in a given mode: keycode 0 is a neutral clear in every mode (R107), any other goes to the mode (R106). -/
def modeEvent (mode : Keycode → Mods → State → Answer State) (k : Keycode) (m : Mods) (s : State) : Answer State :=
  if k = 0x0000 then .next (emit 0x0000 m s) else mode k m s

/-- MODE_IDENTITY, mode index 0 (R106, R110). -/
def execModeIdentity (k : Keycode) (m : Mods) (s : State) : Answer State := modeEvent identity k m s

/-- MODE_DIGRAPH, mode index 1 (R106, R112). -/
def execModeDigraph (k : Keycode) (m : Mods) (s : State) : Answer State := modeEvent digraph k m s

/-- MODE_WORD_SUBSTITUTE, mode index 2 (R106, R114 to R116). -/
def execModeWordSubstitute (k : Keycode) (m : Mods) (s : State) : Answer State := modeEvent wordSubstitute k m s

/-- MODE_WORD_REVERSE, mode index 3 (R106, R117 to R120). -/
def execModeWordReverse (k : Keycode) (m : Mods) (s : State) : Answer State := modeEvent wordReverse k m s

/-- MODE_RANDOM_INTERJECT, mode index 4 (R106, R123, R124). -/
def execModeRandomInterject (k : Keycode) (m : Mods) (s : State) : Answer State := modeEvent randomInterject k m s

/-- mode_apply(k, m) (R106): keycode 0 first (R107), then the active mode. -/
def modeApply (k : Keycode) (m : Mods) (s : State) : Answer State :=
  if k = 0x0000 then .next (emit 0x0000 m s) else
  match s.modeIndex.toNat with
  | 0 => execModeIdentity k m s
  | 1 => execModeDigraph k m s
  | 2 => execModeWordSubstitute k m s
  | 3 => execModeWordReverse k m s
  | 4 => execModeRandomInterject k m s
  | _ => .fault .modeIndexUnreachable

end Sys2Proof.Machine
end

