-- ==== Sys2Proof/Machine/Keys.lean ====
section
/-! DEFINITION. Ordinary keys (spec/42_decoder.md R98, R99). -/

namespace Sys2Proof.Machine

/-- BREAK_KEY (R98): nothing but the flags. -/
def execBreakKey (_e : Bool) (_code : Byte) (s : State) : Answer State := .next (clearFlags s)

/-- MAKE_KEY (R99): translated, then handed to the active mode with the live mask. `E` is not an input of the
translation (conflict C4). -/
def execMakeKey (_e : Bool) (code : Byte) (s : State) : Answer State :=
  andThen (modeApply (translateCode s.cfg code) s.modifierMask s) fun s1 => .next (clearFlags s1)

end Sys2Proof.Machine
end

