-- ==== Sys2Proof/Machine/ModeSwitch.lean ====
section
/-! DEFINITION. The mode-switch codes (spec/42_decoder.md R95 to R97). -/

namespace Sys2Proof.Machine

/-- `min(old + 1, NUM_MODES - 1)` (R95). -/
def nextModeIndex (c : Config) (old : BitVec 3) : BitVec 3 := BitVec.ofNat 3 (min (old.toNat + 1) (c.numModes - 1))

/-- `max(old - 1, 0)`, without wrap (R96). -/
def prevModeIndex (old : BitVec 3) : BitVec 3 := BitVec.ofNat 3 (old.toNat - 1)

/-- A mode switch: the contexts are cleared if the policy says so and the index changes (R95, R96, R108); no sink
operation. -/
def switchMode (new : BitVec 3) (s : State) : State :=
  let s1 := if s.cfg.clearContextOnSwitch && new != s.modeIndex then clearContexts s else s
  clearFlags { s1 with modeIndex := new }

/-- MODE_NEXT (R95). -/
def execModeNext (s : State) : Answer State := .next (switchMode (nextModeIndex s.cfg s.modeIndex) s)

/-- MODE_PREV (R96). -/
def execModePrev (s : State) : Answer State := .next (switchMode (prevModeIndex s.modeIndex) s)

/-- MAKE_MODE_NEXT_IGNORED (R97): nothing but the flags. -/
def execMakeModeNextIgnored (s : State) : Answer State := .next (clearFlags s)

/-- MAKE_MODE_PREV_IGNORED (R97): nothing but the flags. -/
def execMakeModePrevIgnored (s : State) : Answer State := .next (clearFlags s)

end Sys2Proof.Machine
end

