-- ==== Sys2Proof/Machine/Modifiers.lean ====
section
/-! DEFINITION. Modifier presses and releases (spec/42_decoder.md R88 to R90). Each is a terminal code, so the flags are cleared after it (R85). -/

namespace Sys2Proof.Machine

/-- A modifier press (R89): the bit is set and the new mask pushed to the sink. -/
def pressModifier (bit : Mods) (s : State) : State := clearFlags (changeMask (maskPressed s.modifierMask bit) s)

/-- A modifier release (R90): the bit is cleared and the new mask pushed to the sink. -/
def releaseModifier (bit : Mods) (s : State) : State := clearFlags (changeMask (maskReleased s.modifierMask bit) s)

/-- MAKE_LSHIFT (R88, whatever `E`; R89). -/
def execMakeLShift (_e : Bool) (s : State) : Answer State := .next (pressModifier s.cfg.mods.lshift s)

/-- MAKE_RSHIFT (R88, whatever `E`; R89). -/
def execMakeRShift (_e : Bool) (s : State) : Answer State := .next (pressModifier s.cfg.mods.rshift s)

/-- MAKE_LALT (R88; R89). -/
def execMakeLAlt (s : State) : Answer State := .next (pressModifier s.cfg.mods.lalt s)

/-- MAKE_RALT (R88; R89). -/
def execMakeRAlt (s : State) : Answer State := .next (pressModifier s.cfg.mods.ralt s)

/-- MAKE_LCTRL (R88; R89). -/
def execMakeLCtrl (s : State) : Answer State := .next (pressModifier s.cfg.mods.lctrl s)

/-- MAKE_RCTRL (R88; R89). -/
def execMakeRCtrl (s : State) : Answer State := .next (pressModifier s.cfg.mods.rctrl s)

/-- MAKE_LGUI (R88; R89). -/
def execMakeLGui (s : State) : Answer State := .next (pressModifier s.cfg.mods.lgui s)

/-- MAKE_RGUI (R88; R89). -/
def execMakeRGui (s : State) : Answer State := .next (pressModifier s.cfg.mods.rgui s)

/-- BREAK_LSHIFT (R88, whatever `E`; R90). -/
def execBreakLShift (_e : Bool) (s : State) : Answer State := .next (releaseModifier s.cfg.mods.lshift s)

/-- BREAK_RSHIFT (R88, whatever `E`; R90). -/
def execBreakRShift (_e : Bool) (s : State) : Answer State := .next (releaseModifier s.cfg.mods.rshift s)

/-- BREAK_LALT (R88; R90). -/
def execBreakLAlt (s : State) : Answer State := .next (releaseModifier s.cfg.mods.lalt s)

/-- BREAK_RALT (R88; R90). -/
def execBreakRAlt (s : State) : Answer State := .next (releaseModifier s.cfg.mods.ralt s)

/-- BREAK_LCTRL (R88; R90). -/
def execBreakLCtrl (s : State) : Answer State := .next (releaseModifier s.cfg.mods.lctrl s)

/-- BREAK_RCTRL (R88; R90). -/
def execBreakRCtrl (s : State) : Answer State := .next (releaseModifier s.cfg.mods.rctrl s)

/-- BREAK_LGUI (R88; R90). -/
def execBreakLGui (s : State) : Answer State := .next (releaseModifier s.cfg.mods.lgui s)

/-- BREAK_RGUI (R88; R90). -/
def execBreakRGui (s : State) : Answer State := .next (releaseModifier s.cfg.mods.rgui s)

end Sys2Proof.Machine
end

