-- ==== Sys2Proof/Machine/Navigation.lean ====
section
/-! DEFINITION. Extended navigation keys (spec/42_decoder.md R92 to R94). They bypass the translator and the mode engine. -/

namespace Sys2Proof.Machine

/-- A navigation press (R93): the key is left in the sink's key slot. -/
def pressNav (k : Keycode) (s : State) : State :=
  clearFlags (sinkAll [.setMods s.modifierMask, .setKey k, .send] s)

/-- A navigation release (R94). -/
def releaseNav (s : State) : State := clearFlags (sinkAll [.setKey 0x0000, .send] s)

/-- MAKE_NAV_HOME (R93). -/
def execMakeNavHome (s : State) : Answer State := .next (pressNav s.cfg.navmap.home s)

/-- MAKE_NAV_END (R93). -/
def execMakeNavEnd (s : State) : Answer State := .next (pressNav s.cfg.navmap.end_ s)

/-- MAKE_NAV_PGUP (R93). -/
def execMakeNavPgUp (s : State) : Answer State := .next (pressNav s.cfg.navmap.pgup s)

/-- MAKE_NAV_PGDN (R93). -/
def execMakeNavPgDn (s : State) : Answer State := .next (pressNav s.cfg.navmap.pgdn s)

/-- MAKE_NAV_UP (R93). -/
def execMakeNavUp (s : State) : Answer State := .next (pressNav s.cfg.navmap.up s)

/-- MAKE_NAV_LEFT (R93). -/
def execMakeNavLeft (s : State) : Answer State := .next (pressNav s.cfg.navmap.left s)

/-- MAKE_NAV_DOWN (R93). -/
def execMakeNavDown (s : State) : Answer State := .next (pressNav s.cfg.navmap.down s)

/-- MAKE_NAV_RIGHT (R93). -/
def execMakeNavRight (s : State) : Answer State := .next (pressNav s.cfg.navmap.right s)

/-- MAKE_NAV_DEL (R93). -/
def execMakeNavDel (s : State) : Answer State := .next (pressNav s.cfg.navmap.del s)

/-- BREAK_NAV_HOME (R94). -/
def execBreakNavHome (s : State) : Answer State := .next (releaseNav s)

/-- BREAK_NAV_END (R94). -/
def execBreakNavEnd (s : State) : Answer State := .next (releaseNav s)

/-- BREAK_NAV_PGUP (R94). -/
def execBreakNavPgUp (s : State) : Answer State := .next (releaseNav s)

/-- BREAK_NAV_PGDN (R94). -/
def execBreakNavPgDn (s : State) : Answer State := .next (releaseNav s)

/-- BREAK_NAV_UP (R94). -/
def execBreakNavUp (s : State) : Answer State := .next (releaseNav s)

/-- BREAK_NAV_LEFT (R94). -/
def execBreakNavLeft (s : State) : Answer State := .next (releaseNav s)

/-- BREAK_NAV_DOWN (R94). -/
def execBreakNavDown (s : State) : Answer State := .next (releaseNav s)

/-- BREAK_NAV_RIGHT (R94). -/
def execBreakNavRight (s : State) : Answer State := .next (releaseNav s)

/-- BREAK_NAV_DEL (R94). -/
def execBreakNavDel (s : State) : Answer State := .next (releaseNav s)

end Sys2Proof.Machine
end

