-- ==== Sys2Proof/Machine/Prefixes.lean ====
section
/-! DEFINITION. The prefix bytes (spec/42_decoder.md R86, R87). The fields `B` and `E` of their rows are "any" (log 20). -/

namespace Sys2Proof.Machine

/-- PFX_BREAK (R86). -/
def execPfxBreak (_b _e : Bool) (s : State) : Answer State := .next (setBreak s)

/-- PFX_EXT (R87). -/
def execPfxExt (_b _e : Bool) (s : State) : Answer State := .next (setExtended s)

end Sys2Proof.Machine
end

