-- ==== Sys2Proof/Machine/SinkOps.lean ====
section
/-! DEFINITION. The sink operations as instructions of their own (spec/30_encoding.md R64). -/

namespace Sys2Proof.Machine

/-- SetMods(m) (R64). -/
def execSetMods (m : Mods) (s : State) : Answer State := .next (sinkAll [.setMods m] s)

/-- SetKey(k) (R64). -/
def execSetKey (k : Keycode) (s : State) : Answer State := .next (sinkAll [.setKey k] s)

/-- Send (R64). -/
def execSend (s : State) : Answer State := .next (sinkAll [.send] s)

end Sys2Proof.Machine
end

