-- ==== Sys2Proof/Machine/Poll.lean ====
section
/-! DEFINITION. The decoder step and the transactions POLL and RESET (spec/42_decoder.md R84, spec/41_framequeue.md R82, spec/70_reset_and_hazards.md R140). -/

namespace Sys2Proof.Machine

/-- Run the rule of one row of the opcode map (R84). The other rows of the table are no decode words, and
`decodeDecodeWord` never gives one. -/
def runRow (i : Instr) (s : State) : Answer State :=
  match i with
  | .pfxBreak b e => execPfxBreak b e s
  | .pfxExt b e => execPfxExt b e s
  | .makeLShift e => execMakeLShift e s
  | .makeRShift e => execMakeRShift e s
  | .makeLAlt => execMakeLAlt s
  | .makeRAlt => execMakeRAlt s
  | .makeLCtrl => execMakeLCtrl s
  | .makeRCtrl => execMakeRCtrl s
  | .makeLGui => execMakeLGui s
  | .makeRGui => execMakeRGui s
  | .breakLShift e => execBreakLShift e s
  | .breakRShift e => execBreakRShift e s
  | .breakLAlt => execBreakLAlt s
  | .breakRAlt => execBreakRAlt s
  | .breakLCtrl => execBreakLCtrl s
  | .breakRCtrl => execBreakRCtrl s
  | .breakLGui => execBreakLGui s
  | .breakRGui => execBreakRGui s
  | .makeNavHome => execMakeNavHome s
  | .makeNavEnd => execMakeNavEnd s
  | .makeNavPgUp => execMakeNavPgUp s
  | .makeNavPgDn => execMakeNavPgDn s
  | .makeNavUp => execMakeNavUp s
  | .makeNavLeft => execMakeNavLeft s
  | .makeNavDown => execMakeNavDown s
  | .makeNavRight => execMakeNavRight s
  | .makeNavDel => execMakeNavDel s
  | .breakNavHome => execBreakNavHome s
  | .breakNavEnd => execBreakNavEnd s
  | .breakNavPgUp => execBreakNavPgUp s
  | .breakNavPgDn => execBreakNavPgDn s
  | .breakNavUp => execBreakNavUp s
  | .breakNavLeft => execBreakNavLeft s
  | .breakNavDown => execBreakNavDown s
  | .breakNavRight => execBreakNavRight s
  | .breakNavDel => execBreakNavDel s
  | .modeNext => execModeNext s
  | .modePrev => execModePrev s
  | .makeModeNextIgnored => execMakeModeNextIgnored s
  | .makeModePrevIgnored => execMakeModePrevIgnored s
  | .breakKey e code => execBreakKey e code s
  | .makeKey e code => execMakeKey e code s
  | .frame _ _ | .edge _ _ | .poll | .reset | .setMods _ | .setKey _ | .send => .refused .notADecodeRow
  | .modeIdentity _ _ | .modeDigraph _ _ | .modeWordSubstitute _ _ | .modeWordReverse _ _
  | .modeRandomInterject _ _ => .refused .notADecodeRow

/-- decode(s) (R84): the decode word is formed from the flags and the code, and its row's rule is run; every
terminal row clears the flags (R85). -/
def decodeStep (code : Byte) (s : State) : Answer State :=
  runRow (decodeDecodeWord (decodeWordOf s.breakPending s.extendedPending code)) s

/-- POLL() (R82). -/
def execPoll (s : State) : Answer State :=
  andThen (pop s) fun r =>
    match r.1 with
    | none => .next (returnConsumed false r.2)
    | some code => andThen (decodeStep code r.2) fun s1 => .next (returnConsumed true s1)

/-- RESET() (R140): every register but the two arrays; the sink is not touched (R142). -/
def execReset (s : State) : Answer State :=
  .next { s with
    bitCount := 0, shiftRegister := 0x00, lastEdgeTime := 0,
    head := 0, tail := 0,
    breakPending := false, extendedPending := false, modifierMask := 0x0000,
    modeIndex := 0,
    dgPrevKey := 0x0000, dgPrevMods := 0x0000, wsCount := 0, wrCount := 0 }

end Sys2Proof.Machine
end

