-- ==== Sys2Proof/Machine/Dispatch.lean ====
section
/-! DEFINITION. The dispatch: one arm per row of spec/opcode_table.json. -/

namespace Sys2Proof.Machine

open Sys2Proof

def exec (i : Instr) (s : State) : Host.Outcome State Fault Refusal :=
  match i with
  | .pfxBreak b e => Sys2Proof.Machine.execPfxBreak b e s
  | .pfxExt b e => Sys2Proof.Machine.execPfxExt b e s
  | .makeLShift e => Sys2Proof.Machine.execMakeLShift e s
  | .makeRShift e => Sys2Proof.Machine.execMakeRShift e s
  | .makeLAlt => Sys2Proof.Machine.execMakeLAlt s
  | .makeRAlt => Sys2Proof.Machine.execMakeRAlt s
  | .makeLCtrl => Sys2Proof.Machine.execMakeLCtrl s
  | .makeRCtrl => Sys2Proof.Machine.execMakeRCtrl s
  | .makeLGui => Sys2Proof.Machine.execMakeLGui s
  | .makeRGui => Sys2Proof.Machine.execMakeRGui s
  | .breakLShift e => Sys2Proof.Machine.execBreakLShift e s
  | .breakRShift e => Sys2Proof.Machine.execBreakRShift e s
  | .breakLAlt => Sys2Proof.Machine.execBreakLAlt s
  | .breakRAlt => Sys2Proof.Machine.execBreakRAlt s
  | .breakLCtrl => Sys2Proof.Machine.execBreakLCtrl s
  | .breakRCtrl => Sys2Proof.Machine.execBreakRCtrl s
  | .breakLGui => Sys2Proof.Machine.execBreakLGui s
  | .breakRGui => Sys2Proof.Machine.execBreakRGui s
  | .makeNavHome => Sys2Proof.Machine.execMakeNavHome s
  | .makeNavEnd => Sys2Proof.Machine.execMakeNavEnd s
  | .makeNavPgUp => Sys2Proof.Machine.execMakeNavPgUp s
  | .makeNavPgDn => Sys2Proof.Machine.execMakeNavPgDn s
  | .makeNavUp => Sys2Proof.Machine.execMakeNavUp s
  | .makeNavLeft => Sys2Proof.Machine.execMakeNavLeft s
  | .makeNavDown => Sys2Proof.Machine.execMakeNavDown s
  | .makeNavRight => Sys2Proof.Machine.execMakeNavRight s
  | .makeNavDel => Sys2Proof.Machine.execMakeNavDel s
  | .breakNavHome => Sys2Proof.Machine.execBreakNavHome s
  | .breakNavEnd => Sys2Proof.Machine.execBreakNavEnd s
  | .breakNavPgUp => Sys2Proof.Machine.execBreakNavPgUp s
  | .breakNavPgDn => Sys2Proof.Machine.execBreakNavPgDn s
  | .breakNavUp => Sys2Proof.Machine.execBreakNavUp s
  | .breakNavLeft => Sys2Proof.Machine.execBreakNavLeft s
  | .breakNavDown => Sys2Proof.Machine.execBreakNavDown s
  | .breakNavRight => Sys2Proof.Machine.execBreakNavRight s
  | .breakNavDel => Sys2Proof.Machine.execBreakNavDel s
  | .modeNext => Sys2Proof.Machine.execModeNext s
  | .modePrev => Sys2Proof.Machine.execModePrev s
  | .makeModeNextIgnored => Sys2Proof.Machine.execMakeModeNextIgnored s
  | .makeModePrevIgnored => Sys2Proof.Machine.execMakeModePrevIgnored s
  | .breakKey e code => Sys2Proof.Machine.execBreakKey e code s
  | .makeKey e code => Sys2Proof.Machine.execMakeKey e code s
  | .frame levels t => Sys2Proof.Machine.execFrame levels t s
  | .edge d t => Sys2Proof.Machine.execEdge d t s
  | .poll => Sys2Proof.Machine.execPoll s
  | .reset => Sys2Proof.Machine.execReset s
  | .setMods m => Sys2Proof.Machine.execSetMods m s
  | .setKey k => Sys2Proof.Machine.execSetKey k s
  | .send => Sys2Proof.Machine.execSend s
  | .modeIdentity k m => Sys2Proof.Machine.execModeIdentity k m s
  | .modeDigraph k m => Sys2Proof.Machine.execModeDigraph k m s
  | .modeWordSubstitute k m => Sys2Proof.Machine.execModeWordSubstitute k m s
  | .modeWordReverse k m => Sys2Proof.Machine.execModeWordReverse k m s
  | .modeRandomInterject k m => Sys2Proof.Machine.execModeRandomInterject k m s

end Sys2Proof.Machine
end

