-- ==== Sys2Proof/Machine/Fetch.lean ====
section
/-! DEFINITION. What the next step takes up: the first presented word (spec/30_encoding.md R65, log 3), and the placing of a single word so that the next step runs it (log 3, log 4). -/

namespace Sys2Proof.Machine

/-- The next presented word, and the state once it has been taken. -/
def fetch (s : State) : Option (InWord × State) :=
  match s.presented with
  | [] => none
  | w :: rest => some (w, { s with presented := rest })

/-- Put `w` before everything already presented. -/
def presentFirst (w : InWord) (s : State) : State := { s with presented := w :: s.presented }

/-- Make `code` the code the next pop returns: it takes the place of the oldest unread entry, or is the one entry
of an empty queue. -/
def placeNextCode (code : Byte) (s : State) : State :=
  { s with
    buf := Memory.write s.buf s.tail code,
    head := if s.head = s.tail then (s.tail + 1) % s.cfg.qsize else s.head }

/-- A decode word is run by the POLL that takes its code with its flags pending (R84, R82). -/
def placeDecodeWord (w : BitVec 10) (s : State) : State :=
  presentFirst ⟨.transaction, 1⟩
    (placeNextCode (wordS w) { s with breakPending := wordB w, extendedPending := wordE w })

/-- Place one word, in the format its width names, so that the next step runs it: a decode word through the queue
and a POLL, any other as the next presented word. -/
def placeWord (nbits w : Nat) (s : State) : State :=
  match formatOfWidth nbits with
  | none => s
  | some .decodeWord => placeDecodeWord (BitVec.ofNat 10 w) s
  | some f => presentFirst ⟨f, w⟩ s

end Sys2Proof.Machine
end

