-- ==== Sys2Proof/Machine/Step.lean ====
section
/-! DEFINITION. One step: one transaction, taken from what the environment presents (spec/20_memory.md R43, log 3). -/

namespace Sys2Proof.Machine

/-- One step. With nothing presented the block is idle and keeps all its state (R138); else the next word is decoded
and run, or refused if it is no instruction (R65, R66). -/
def step (s : State) : Host.Outcome State Fault Refusal :=
  match fetch s with
  | none => .next s
  | some (w, s1) =>
    match decode w with
    | .ok i => exec i s1
    | .error e => .refused (.undecodable e)

/-- `s` with the word `w` of `nbits` bits placed so that the very next step runs it (log 3, log 4). -/
def State.withFetchWord (s : State) (nbits w : Nat) : State := placeWord nbits w s

end Sys2Proof.Machine
end

