-- ==== Sys2Proof/Safety.lean ====
section
/-! DEFINITION. What holds in every state a run reaches (spec/10_state.md R33), what the environment owes (spec/60_exceptions.md R139), and the queue as a sequence (spec/20_memory.md R49). -/

namespace Sys2Proof.Machine

/-- How many unread codes the queue holds: `(head - tail) mod QSIZE` (R20, R81). -/
def queueCount (s : State) : Nat := (s.head + s.cfg.qsize - s.tail) % s.cfg.qsize

/-- The `i`-th unread entry, oldest first: `buf[(tail + i) mod QSIZE]` (R33 item 2). -/
def unreadAt (s : State) (i : Nat) : Option Byte := Memory.read s.buf ((s.tail + i) % s.cfg.qsize)

/-- The unread codes, oldest first. -/
def unread (s : State) : List Byte := (List.range (queueCount s)).map fun i => (unreadAt s i).getD 0

/-- Every index of a sparse array is below its size (R36). -/
def indicesBelow {α : Type} (n : Nat) (m : Memory α) : Bool := m.all fun p => decide (p.1 < n)

/-- The invariants of R33, with the widths of R12, the sizes of R36 and the constraints on the parameters (R7). -/
structure Invariants (s : State) : Prop where
  params : s.cfg.wf = true
  paramsModel : s.cfg.wfModel = true
  /-- R33 item 1. -/
  headInRange : s.head < s.cfg.qsize
  /-- R33 item 1. -/
  tailInRange : s.tail < s.cfg.qsize
  /-- R33 item 2: every unread entry was written. -/
  unreadWritten : ∀ i, i < queueCount s → (unreadAt s i).isSome = true
  bufCanonical : Memory.wf s.buf = true
  bufInRange : indicesBelow s.cfg.qsize s.buf = true
  /-- R33 item 3. -/
  bitCountInRange : s.bitCount < s.cfg.frameEdges
  /-- R33 item 4: bit `j` may be set only once edge `j + 1` has been taken. -/
  shiftRegisterPartial : ∀ j, j < 8 → s.shiftRegister.getLsbD j = true → j + 2 ≤ s.bitCount
  /-- The width of `last_edge_time` (R12, R17). -/
  lastEdgeTimeInRange : s.lastEdgeTime < 2 ^ s.cfg.timeWidth
  /-- R33 item 5. -/
  modifierMaskHigh : s.modifierMask &&& 0xFF00 = 0
  /-- R33 item 5. -/
  dgPrevModsHigh : s.dgPrevMods &&& 0xFF00 = 0
  /-- R33 item 6. -/
  modeIndexInRange : s.modeIndex.toNat < s.cfg.numModes
  /-- R33 item 6. -/
  wsCountInRange : s.wsCount ≤ s.cfg.wsCountMax
  /-- R33 item 6. -/
  wrCountInRange : s.wrCount ≤ s.cfg.wrCap
  /-- R33 item 7: every buffered letter was written. -/
  wrBufWritten : ∀ i, i < s.wrCount → (Memory.read s.wrBuf i).isSome = true
  wrBufCanonical : Memory.wf s.wrBuf = true
  wrBufInRange : indicesBelow s.cfg.wrCap s.wrBuf = true

/-- A word the environment may present: EDGE, POLL, RESET (R139), or FRAME, the named form of eleven EDGEs (R68). -/
def environmentWord (w : InWord) : Bool :=
  match w.fmt with
  | .frame => true
  | .transaction => (decodeTransaction w.bits).isOk
  | .decodeWord | .sinkOp | .modeIndex => false

/-- The environment keeps its duties (R139): it presents its own transactions only, and every draw is in range. -/
structure EnvOk (s : State) : Prop where
  words : ∀ w ∈ s.presented, environmentWord w = true
  drawsInRange : ∀ r ∈ s.draws, r < s.cfg.dictSize

end Sys2Proof.Machine
end

