-- ==== Sys2Proof/Certificates/Slice0/Obligations.lean ====
section
/-! DEFINITION. The statements for the provers, from the numbered rules of spec/. Where a statement rests on a decision of the spec's own (D<n>), its docstring says so. -/

namespace Sys2Proof.Claims

open Sys2Proof Sys2Proof.Machine

/-- The eight modifier presses with the mask bit of each (R60 rows 3 to 10, R88); `e` is the ignored `E` of the shifts. -/
def pressRows (l : ModLayout) (e : Bool) : List (Instr × Mods) := [
  (.makeLShift e, l.lshift), (.makeRShift e, l.rshift), (.makeLAlt, l.lalt), (.makeRAlt, l.ralt),
  (.makeLCtrl, l.lctrl), (.makeRCtrl, l.rctrl), (.makeLGui, l.lgui), (.makeRGui, l.rgui)]

/-- The eight modifier releases with the mask bit of each (R60 rows 11 to 18, R88). -/
def releaseRows (l : ModLayout) (e : Bool) : List (Instr × Mods) := [
  (.breakLShift e, l.lshift), (.breakRShift e, l.rshift), (.breakLAlt, l.lalt), (.breakRAlt, l.ralt),
  (.breakLCtrl, l.lctrl), (.breakRCtrl, l.rctrl), (.breakLGui, l.lgui), (.breakRGui, l.rgui)]

/-- The nine navigation keys: scan code, press, release, keycode (R60 rows 19 to 36, R92). -/
def navRows (n : NavMap) : List (Byte × Instr × Instr × Keycode) := [
  (0x6C, .makeNavHome, .breakNavHome, n.home), (0x69, .makeNavEnd, .breakNavEnd, n.end_),
  (0x7D, .makeNavPgUp, .breakNavPgUp, n.pgup), (0x7A, .makeNavPgDn, .breakNavPgDn, n.pgdn),
  (0x75, .makeNavUp, .breakNavUp, n.up), (0x6B, .makeNavLeft, .breakNavLeft, n.left),
  (0x72, .makeNavDown, .breakNavDown, n.down), (0x74, .makeNavRight, .breakNavRight, n.right),
  (0x71, .makeNavDel, .breakNavDel, n.del)]

/-- The row of each mode index for one event (R23, R63, R106). -/
def modeRow (idx : Nat) (k : Keycode) (m : Mods) : Option Instr :=
  match idx with
  | 0 => some (.modeIdentity k m)
  | 1 => some (.modeDigraph k m)
  | 2 => some (.modeWordSubstitute k m)
  | 3 => some (.modeWordReverse k m)
  | 4 => some (.modeRandomInterject k m)
  | _ => none

/-- Successive pushes, their results not used. -/
def pushAll : List Byte → State → Answer State
  | [], s => .next s
  | c :: cs, s => andThen (push c s) fun r => pushAll cs r.2

/-- `n` successive pops: the codes returned, in order, and the state they leave. -/
def popAll : Nat → State → Answer (List (Option Byte) × State)
  | 0, s => .next ([], s)
  | n + 1, s => andThen (pop s) fun r => andThen (popAll n r.2) fun q => .next (r.1 :: q.1, q.2)

/-- One access to the queue by its agents (R47). -/
inductive QueueAccess where
  | push (code : Byte)
  | pop
deriving DecidableEq, Repr

/-- Accesses to the queue in any order: the codes accepted by the pushes, the codes returned by the pops, both oldest
first, and the state they leave. A dropped code and an empty pop add nothing. -/
def accessAll : List QueueAccess → State → Answer (List Byte × List Byte × State)
  | [], s => .next ([], [], s)
  | .push c :: rest, s =>
    andThen (push c s) fun r => andThen (accessAll rest r.2) fun q =>
      .next ((if r.1 then [c] else []) ++ q.1, q.2)
  | .pop :: rest, s =>
    andThen (pop s) fun r => andThen (accessAll rest r.2) fun q => .next (q.1, r.1.toList ++ q.2.1, q.2.2)

/-- `s` with the elements the producer writes taken from `p` (R32). -/
def withProducer (s p : State) : State :=
  { s with bitCount := p.bitCount, shiftRegister := p.shiftRegister, lastEdgeTime := p.lastEdgeTime,
           buf := p.buf, head := p.head }

/-- `s` with the framer's own elements, which the consumer neither writes nor reads, taken from `p` (R32, C5). -/
def withFramer (s p : State) : State :=
  { s with bitCount := p.bitCount, shiftRegister := p.shiftRegister, lastEdgeTime := p.lastEdgeTime }

/-- `s` with every element but the framer's, the queue's and the parameters taken from `c`: all that the producer
neither writes nor reads (R32). -/
def withConsumer (s c : State) : State :=
  { c with bitCount := s.bitCount, shiftRegister := s.shiftRegister, lastEdgeTime := s.lastEdgeTime,
           buf := s.buf, head := s.head, tail := s.tail, cfg := s.cfg }

/-- The flags as after a terminal code (R85). -/
def flagsClear (s : State) : State := { s with breakPending := false, extendedPending := false }

end Sys2Proof.Claims

open Sys2Proof Sys2Proof.Machine Sys2Proof.Claims

/-! ### Encodings and the step -/

/-- Decoding the word of a well-formed instruction gives the instruction back, for every row of the table and every
operand (30_encoding.md, sections 1, 3, 5, 6; the places of operands beyond the table's bits are the model's, log 15). -/
def Obligations.DecodeOfEncodeIsTheInstruction : Prop :=
  ∀ i : Instr, i.wellFormed = true → decode (encode i) = .ok i

/-- Each word has one meaning: a word that decodes is the encoding of what it decodes to, which is well formed
(30_encoding.md, sections 1, 3, 5, 6; log 15). -/
def Obligations.EncodeOfDecodeIsTheWord : Prop :=
  ∀ (w : InWord) (i : Instr), decode w = .ok i → encode i = w ∧ i.wellFormed = true

/-- The pattern of R60's map: rows 1 to 40 are pairwise disjoint, and a word none of them matches goes to the catch-all
of its `B` with its `E` and `s`. -/
def Obligations.OpcodeMapRowsAreDisjoint : Prop :=
  namedRows.length = 40 ∧
  namedRows.Pairwise (fun r r' => ∀ w : BitVec 10, ¬ (w &&& r.mask = r.mtch ∧ w &&& r'.mask = r'.mtch)) ∧
  ∀ (b e : Bool) (s : Byte), (∀ r ∈ namedRows, decodeWordOf b e s &&& r.mask ≠ r.mtch) →
    decodeDecodeWord (decodeWordOf b e s) = if b then .breakKey e s else .makeKey e s

/-- Words written out from the tables of R56, R60, R63, R64 and R65. That the format is told by the number of bits (16 and
24 are whole bytes, in no table of the spec), and that a frame's `t` and a mode's `k`, `m` stand above the table's bits,
is the model's choice (log 15). -/
def Obligations.TableWordsDecode : Prop :=
  decodeTableWord 16 0x0F0 = some (.pfxBreak false false) ∧
  decodeTableWord 16 0x112 = some (.makeLShift true) ∧
  decodeTableWord 16 0x314 = some .breakRCtrl ∧
  decodeTableWord 16 0x175 = some .makeNavUp ∧
  decodeTableWord 16 0x371 = some .breakNavDel ∧
  decodeTableWord 16 0x332 = some .modeNext ∧
  decodeTableWord 16 0x121 = some .makeModePrevIgnored ∧
  decodeTableWord 16 0x275 = some (.breakKey false 0x75) ∧
  decodeTableWord 16 0x01C = some (.makeKey false 0x1C) ∧
  decodeTableWord 11 0b00011100001 = some (.frame 0b00011100001 0) ∧
  decodeTableWord 2 1 = some .poll ∧
  decodeTableWord 24 0x10004 = some (.setKey 0x0004) ∧
  decodeTableWord 3 4 = some (.modeRandomInterject 0 0)

/-- A presented transaction word with tag `11` is refused by the step (R65; what stands above the tag is log 15). That a
sink word or a mode word can be presented at all is the model's choice (log 4), and so is refusing it: sink op `11`
(R64: never produced) and mode index 5 to 7 below 35 bits (R63: unreachable), with the word's layout (log 15). -/
def Obligations.ReservedWordsAreRefused : Prop :=
  ∀ (s : State) (w : InWord) (rest : List InWord), s.presented = w :: rest →
    (w.fmt = .transaction → w.bits % 4 = 3 → step s = .refused (.undecodable .reservedTag)) ∧
    (w.fmt = .sinkOp → w.bits / 2 ^ 16 = 3 → step s = .refused (.undecodable .reservedSinkOp)) ∧
    (w.fmt = .modeIndex → w.bits < 2 ^ 35 → 5 ≤ w.bits % 8 → step s = .refused (.undecodable .reservedModeIndex))

/-- A step takes the first presented word and runs the instruction it decodes to (log 3); with none presented the
block is idle and keeps its state (D34). -/
def Obligations.StepRunsThePresentedInstruction : Prop :=
  (∀ (s : State) (w : InWord) (rest : List InWord) (i : Instr),
    s.presented = w :: rest → decode w = .ok i → step s = exec i { s with presented := rest }) ∧
  (∀ s : State, s.presented = [] → step s = .next s)

/-- A POLL that finds a code runs the row of its decode word, formed from the pending flags, after the pop, and
returns true; on an empty queue it returns false and changes nothing else (R82, D28; the returned Bool stands in
`polls`, log 12). -/
def Obligations.PollRunsTheDecodedRow : Prop :=
  ∀ s : State,
    (s.head = s.tail → exec .poll s = .next { s with polls := s.polls ++ [false] }) ∧
    (∀ code : Byte, s.head ≠ s.tail → s.tail < s.cfg.qsize → Memory.read s.buf s.tail = some code →
      exec .poll s =
        andThen (exec (decodeDecodeWord (decodeWordOf s.breakPending s.extendedPending code))
            { s with tail := (s.tail + 1) % s.cfg.qsize })
          fun t => .next { t with polls := t.polls ++ [true] })

/-! ### The framer -/

/-- EDGE(d, t), whole (R69 to R75; the width of the time, the update on every edge and the timed-out edge being a
start bit are D3, D4, D5): the timeout, the sampled bit, the count, and on the last edge the push or the drop. -/
def Obligations.EdgeTransaction : Prop :=
  ∀ (d : Bool) (t : Nat) (s : State), s.lastEdgeTime < 2 ^ s.cfg.timeWidth → s.head < s.cfg.qsize →
    let now := t % 2 ^ s.cfg.timeWidth
    let gap := (now + 2 ^ s.cfg.timeWidth - s.lastEdgeTime) % 2 ^ s.cfg.timeWidth
    let bc := if s.cfg.idleTimeoutMs < gap then 0 else s.bitCount
    let sr := if s.cfg.idleTimeoutMs < gap then 0 else s.shiftRegister
    ∃ sr' : Byte,
      (∀ j, j < 8 → sr'.getLsbD j = if j + 1 = bc then d else sr.getLsbD j) ∧
      (bc + 1 ≠ s.cfg.frameEdges →
        exec (.edge d t) s = .next { s with lastEdgeTime := now, bitCount := bc + 1, shiftRegister := sr' }) ∧
      (bc + 1 = s.cfg.frameEdges → (s.head + 1) % s.cfg.qsize ≠ s.tail →
        exec (.edge d t) s = .next { s with
          lastEdgeTime := now, bitCount := 0, shiftRegister := 0,
          buf := Memory.write s.buf s.head sr', head := (s.head + 1) % s.cfg.qsize }) ∧
      (bc + 1 = s.cfg.frameEdges → (s.head + 1) % s.cfg.qsize = s.tail →
        exec (.edge d t) s = .next { s with lastEdgeTime := now, bitCount := 0, shiftRegister := 0 })

/-- A frame that begins at a frame boundary delivers its eight data bits, LSB first, whatever its start, parity and
stop levels: the code is pushed, or dropped at a full queue, and the framer is back at a boundary (R57, R74). -/
def Obligations.FrameDeliversItsDataBits : Prop :=
  ∀ (levels : BitVec 11) (t : Nat) (s : State),
    s.cfg.frameEdges = 11 → s.bitCount = 0 → s.shiftRegister = 0 → s.head < s.cfg.qsize →
    ∃ code : Byte,
      (∀ j, j < 8 → code.getLsbD j = levels.getLsbD (9 - j)) ∧
      exec (.frame levels t) s = .next
        (if (s.head + 1) % s.cfg.qsize = s.tail then { s with lastEdgeTime := t % 2 ^ s.cfg.timeWidth }
         else { s with
          lastEdgeTime := t % 2 ^ s.cfg.timeWidth,
          buf := Memory.write s.buf s.head code, head := (s.head + 1) % s.cfg.qsize })

/-- FRAME is eleven EDGE transactions, one for each level in arrival order, from any state (30_encoding.md section 8,
D35; one time operand for all, log 5). -/
def Obligations.FrameIsElevenEdges : Prop :=
  ∀ (levels : BitVec 11) (t : Nat) (s : State),
    exec (.frame levels t) s =
      ([10, 9, 8, 7, 6, 5, 4, 3, 2, 1, 0].map fun i => levels.getLsbD i).foldl
        (fun a d => andThen a fun s1 => exec (.edge d t) s1) (.next s)

/-- One extra edge before a frame (R77, which the spec derives), with no idle gap: the value pushed is the byte shifted
left by one with the start level in bit 0, and the stop edge is taken as the start of the next frame. -/
def Obligations.MisalignedFrameShiftsTheCode : Prop :=
  ∀ (levels : BitVec 11) (t : Nat) (s : State),
    s.cfg.frameEdges = 11 → s.bitCount = 1 → s.shiftRegister = 0 → s.head < s.cfg.qsize →
    s.lastEdgeTime < 2 ^ s.cfg.timeWidth →
    (t % 2 ^ s.cfg.timeWidth + 2 ^ s.cfg.timeWidth - s.lastEdgeTime) % 2 ^ s.cfg.timeWidth ≤ s.cfg.idleTimeoutMs →
    (s.head + 1) % s.cfg.qsize ≠ s.tail →
    ∃ code : Byte,
      code.getLsbD 0 = levels.getLsbD 10 ∧ (∀ j, j < 7 → code.getLsbD (j + 1) = levels.getLsbD (9 - j)) ∧
      exec (.frame levels t) s = .next { s with
        lastEdgeTime := t % 2 ^ s.cfg.timeWidth,
        buf := Memory.write s.buf s.head code, head := (s.head + 1) % s.cfg.qsize }

/-- After an idle gap longer than IDLE_TIMEOUT_MS an edge acts as from a frame boundary; a gap of exactly
IDLE_TIMEOUT_MS does not (R70, R71; D3, D5). -/
def Obligations.IdleGapAbandonsThePartialFrame : Prop :=
  ∀ (d : Bool) (t : Nat) (s : State), s.lastEdgeTime < 2 ^ s.cfg.timeWidth →
    s.cfg.frameEdges ≠ 1 →
    let now := t % 2 ^ s.cfg.timeWidth
    let gap := (now + 2 ^ s.cfg.timeWidth - s.lastEdgeTime) % 2 ^ s.cfg.timeWidth
    (s.cfg.idleTimeoutMs < gap →
      exec (.edge d t) s = .next { s with lastEdgeTime := now, bitCount := 1, shiftRegister := 0 }) ∧
    (gap = s.cfg.idleTimeoutMs → s.bitCount + 1 ≠ s.cfg.frameEdges →
      ∃ u, exec (.edge d t) s = .next u ∧ u.bitCount = s.bitCount + 1)

/-! ### The queue -/

/-- One entry per access: a push that stores writes one `buf` entry and `head`; a pop reads one entry and writes `tail`;
a WordReverse append writes one `wr_buf` entry. Every other entry reads as before (R42). -/
def Obligations.EachAccessTouchesOneEntry : Prop :=
  (∀ (code : Byte) (s t : State), push code s = .next (true, t) →
    t = { s with buf := t.buf, head := t.head } ∧
    ∀ i, Memory.read t.buf i = if i = s.head then some code else Memory.read s.buf i) ∧
  (∀ (code : Byte) (s t : State), pop s = .next (some code, t) →
    t = { s with tail := t.tail } ∧ Memory.read s.buf s.tail = some code) ∧
  (∀ (i : Nat) (x : WrEntry) (s t : State), bufWrite i x s = .next t →
    t = { s with wrBuf := t.wrBuf } ∧
    ∀ j, Memory.read t.wrBuf j = if j = i then some x else Memory.read s.wrBuf j)

/-- push (R79): full, nothing changes and false is returned; else the entry at `head` is written, `head` moves on, and
true is returned. -/
def Obligations.PushStoresOrDrops : Prop :=
  ∀ (code : Byte) (s : State), s.head < s.cfg.qsize →
    push code s = .next
      (if (s.head + 1) % s.cfg.qsize = s.tail then (false, s)
       else (true, { s with buf := Memory.write s.buf s.head code, head := (s.head + 1) % s.cfg.qsize }))

/-- A push to a full queue keeps the unread codes and loses the new one; otherwise the new code is the last of the
unread codes (R50). -/
def Obligations.PushNeverOverwritesUnread : Prop :=
  ∀ (code : Byte) (s : State), Invariants s →
    ∃ t, push code s = .next (decide ((unread s).length < s.cfg.qcap), t) ∧
      unread t = if (unread s).length < s.cfg.qcap then unread s ++ [code] else unread s

/-- pop (R80): an empty queue returns none and changes nothing; else the entry at `tail` is returned and `tail` moves
on. -/
def Obligations.PopTakesTheOldest : Prop :=
  ∀ s : State,
    (s.head = s.tail → pop s = .next (none, s)) ∧
    (∀ code : Byte, s.head ≠ s.tail → s.tail < s.cfg.qsize → Memory.read s.buf s.tail = some code →
      pop s = .next (some code, { s with tail := (s.tail + 1) % s.cfg.qsize }))

/-- Pushes with no pop between them store the first codes that find room and drop the rest (R81, which the spec
derives). -/
def Obligations.BurstDropsExactlyTheExcess : Prop :=
  ∀ (codes : List Byte) (s : State), Invariants s →
    ∃ t, pushAll codes s = .next t ∧ Invariants t ∧
      unread t = unread s ++ codes.take (s.cfg.qcap - (unread s).length)

/-- A pop takes the first of the unread codes and no other, and answers none only when there is none (R80, R49; R49 is
derived by the spec). -/
def Obligations.PopDeliversTheFirstUnread : Prop :=
  ∀ s : State, Invariants s →
    ∃ r t, pop s = .next (r, t) ∧ Invariants t ∧ unread s = r.toList ++ unread t ∧ (r = none ↔ unread s = [])

/-- In-order delivery, whatever the order of pushes and pops and whatever is unread at the start: the unread codes and
then the accepted ones are the delivered ones and then the codes still unread, so each is delivered in order, once. From
an empty queue a list of codes with room for it comes back whole (R49, which the spec derives). -/
def Obligations.QueueDeliversInOrder : Prop :=
  (∀ (accesses : List QueueAccess) (s : State), Invariants s →
    ∃ accepted delivered t, accessAll accesses s = .next (accepted, delivered, t) ∧ Invariants t ∧
      unread s ++ accepted = delivered ++ unread t) ∧
  (∀ (codes : List Byte) (s : State), Invariants s → s.head = s.tail → codes.length ≤ s.cfg.qcap →
    ∃ t u, pushAll codes s = .next t ∧ popAll codes.length t = .next (codes.map some, u) ∧ u.head = u.tail)

/-! ### The decoder -/

/-- The prefix bytes (R86, R87): each word with `s = F0` or `E0`, whatever `B` and `E`, sets its flag and does nothing
else. -/
def Obligations.PrefixBytesSetTheirFlag : Prop :=
  ∀ (b e : Bool) (s : State),
    decodeDecodeWord (decodeWordOf b e 0xF0) = .pfxBreak b e ∧
    exec (.pfxBreak b e) s = .next { s with breakPending := true } ∧
    decodeDecodeWord (decodeWordOf b e 0xE0) = .pfxExt b e ∧
    exec (.pfxExt b e) s = .next { s with extendedPending := true }

/-- After every terminal code both flags are false; a prefix clears none (R85). -/
def Obligations.TerminalCodesClearTheFlags : Prop :=
  ∀ (code : Byte) (s t : State), decodeStep code s = .next t →
    (code ≠ 0xF0 → code ≠ 0xE0 → t.breakPending = false ∧ t.extendedPending = false) ∧
    (code = 0xF0 → t.breakPending = true ∧ t.extendedPending = s.extendedPending) ∧
    (code = 0xE0 → t.extendedPending = true ∧ t.breakPending = s.breakPending)

/-- A modifier press sets its bit, pushes the new mask and sends (R88, R89; the sequence is D10, which codes need `E0`
is D8): the eight rows, and the word of every modifier code being one of them with that bit. -/
def Obligations.ModifierPressSetsItsBit : Prop :=
  (∀ (s : State) (e : Bool), ∀ p ∈ pressRows s.cfg.mods e,
    exec p.1 s = .next { s with
      modifierMask := s.modifierMask ||| p.2, breakPending := false, extendedPending := false,
      out := s.out ++ [.setMods (s.modifierMask ||| p.2), .send],
      sink := { s.sink with mods := s.modifierMask ||| p.2,
                            reports := s.sink.reports ++ [(s.modifierMask ||| p.2, s.sink.key)] } }) ∧
  (∀ (l : ModLayout) (e : Bool) (code : Byte) (bit : Mods), modbit l e code = some bit →
    (decodeDecodeWord (decodeWordOf false e code), bit) ∈ pressRows l e)

/-- A modifier release clears its bit, pushes the new mask and sends (R88, R90; D10, D8). -/
def Obligations.ModifierReleaseClearsItsBit : Prop :=
  (∀ (s : State) (e : Bool), ∀ p ∈ releaseRows s.cfg.mods e,
    exec p.1 s = .next { s with
      modifierMask := s.modifierMask &&& ~~~p.2, breakPending := false, extendedPending := false,
      out := s.out ++ [.setMods (s.modifierMask &&& ~~~p.2), .send],
      sink := { s.sink with mods := s.modifierMask &&& ~~~p.2,
                            reports := s.sink.reports ++ [(s.modifierMask &&& ~~~p.2, s.sink.key)] } }) ∧
  (∀ (l : ModLayout) (e : Bool) (code : Byte) (bit : Mods), modbit l e code = some bit →
    (decodeDecodeWord (decodeWordOf true e code), bit) ∈ releaseRows l e)

/-- A press and, after anything that leaves the mask alone, the release of the same modifier give back the mask before
the press, if the bit was clear; if it was set, the release clears it (R91, which the spec derives). -/
def Obligations.ModifierRoundTrip : Prop :=
  ∀ (s t u v : State) (e e' : Bool) (n : Nat) (press release : Instr) (bit : Mods),
    (pressRows s.cfg.mods e)[n]? = some (press, bit) → (releaseRows s.cfg.mods e')[n]? = some (release, bit) →
    exec press s = .next t → u.modifierMask = t.modifierMask → u.cfg = t.cfg → exec release u = .next v →
    (s.modifierMask &&& bit = 0 → v.modifierMask = s.modifierMask) ∧ v.modifierMask &&& bit = 0

/-- A navigation press sends the live mask and its keycode and leaves the key in the slot; neither the translator nor
the mode engine is used (R92, R93; D10, D13). -/
def Obligations.NavigationPressHoldsTheKey : Prop :=
  ∀ (s : State), ∀ r ∈ navRows s.cfg.navmap,
    decodeDecodeWord (decodeWordOf false true r.1) = r.2.1 ∧
    exec r.2.1 s = .next { s with
      breakPending := false, extendedPending := false,
      out := s.out ++ [.setMods s.modifierMask, .setKey r.2.2.2, .send],
      sink := { mods := s.modifierMask, key := r.2.2.2,
                reports := s.sink.reports ++ [(s.modifierMask, r.2.2.2)] } }

/-- A navigation release clears the key slot and sends (R94; D10). -/
def Obligations.NavigationReleaseClearsTheSlot : Prop :=
  ∀ (s : State), ∀ r ∈ navRows s.cfg.navmap,
    decodeDecodeWord (decodeWordOf true true r.1) = r.2.2.1 ∧
    exec r.2.2.1 s = .next { s with
      breakPending := false, extendedPending := false,
      out := s.out ++ [.setKey 0, .send],
      sink := { s.sink with key := 0, reports := s.sink.reports ++ [(s.sink.mods, 0)] } }

/-- The mode-switch releases move the index by one, clamped to `[0, NUM_MODES - 1]`, with no sink operation; the
contexts are cleared only under CLEAR_CONTEXT_ON_SWITCH and when the index changes (R95, R96, R108; D9, D26). -/
def Obligations.ModeSwitchIsClamped : Prop :=
  ∀ s : State, 1 ≤ s.cfg.numModes → s.cfg.numModes ≤ 5 →
    ∀ p ∈ [(Instr.modeNext, min (s.modeIndex.toNat + 1) (s.cfg.numModes - 1)),
           (Instr.modePrev, s.modeIndex.toNat - 1)],
      ∃ new : BitVec 3, new.toNat = p.2 ∧
        exec p.1 s = .next (flagsClear (
          if s.cfg.clearContextOnSwitch = true ∧ new ≠ s.modeIndex then
            { s with modeIndex := new, dgPrevKey := 0, dgPrevMods := 0, wsCount := 0, wrCount := 0 }
          else { s with modeIndex := new }))

/-- The extended presses of the mode keys are ignored (without `E0` the same codes are letters), and so are the releases
of ordinary keys: nothing but the flags (R97, R98). -/
def Obligations.IgnoredCodesChangeOnlyFlags : Prop :=
  ∀ s : State,
    decodeDecodeWord (decodeWordOf false true 0x32) = .makeModeNextIgnored ∧
    exec .makeModeNextIgnored s = .next (flagsClear s) ∧
    decodeDecodeWord (decodeWordOf false true 0x21) = .makeModePrevIgnored ∧
    exec .makeModePrevIgnored s = .next (flagsClear s) ∧
    (∀ code : Byte, code = 0x32 ∨ code = 0x21 →
      decodeDecodeWord (decodeWordOf false false code) = .makeKey false code) ∧
    (∀ (e : Bool) (code : Byte), isOrdinaryCode e code = true →
      decodeDecodeWord (decodeWordOf true e code) = .breakKey e code) ∧
    (∀ (e : Bool) (code : Byte), exec (.breakKey e code) s = .next (flagsClear s))

/-- translate (R101): an index of KEYMAP_SIZE or more gives "no key", any other the table's entry; codes `00` and `FF`
give 0 under R7. -/
def Obligations.TranslateLooksUpTheKeymap : Prop :=
  ∀ (c : Config) (s : Byte),
    (c.keymapSize ≤ s.toNat → translateCode c s = 0) ∧
    (s.toNat < c.keymapSize → translateCode c s = c.keymap.getD s.toNat 0) ∧
    (c.wf = true → translateCode c 0x00 = 0) ∧
    (c.keymapSize ≤ 255 → translateCode c 0xFF = 0)

/-- The press of an ordinary key is translated by its low byte, `E` being no input, and given to the active mode with
the live mask; then the flags are clear (R99, R106). The numbering of the modes is D25, the spec's own choice; that a
MODE_* row is the handling of one event is log 19. -/
def Obligations.OrdinaryPressGoesToTheActiveMode : Prop :=
  (∀ (e : Bool) (code : Byte), isOrdinaryCode e code = true →
    decodeDecodeWord (decodeWordOf false e code) = .makeKey e code) ∧
  ∀ (s : State) (e : Bool) (code : Byte) (i : Instr),
    modeRow s.modeIndex.toNat (translateCode s.cfg code) s.modifierMask = some i →
    exec (.makeKey e code) s = andThen (exec i s) fun t => .next (flagsClear t)

/-- An ordinary press completes in every mode: in a mode of R23, with the buffered letters written and the random
source giving values in range. -/
def Obligations.OrdinaryPressCompletes : Prop :=
  ∀ (s : State) (e : Bool) (code : Byte),
    s.modeIndex.toNat ≤ 4 → s.wrCount ≤ s.cfg.wrCap → (∀ i, i < s.wrCount → (Memory.read s.wrBuf i).isSome = true) →
    (∀ r ∈ s.draws, r < s.cfg.dictSize) → 0 < s.cfg.dictSize →
    ∃ t, exec (.makeKey e code) s = .next t ∧ t.breakPending = false ∧ t.extendedPending = false ∧
      t.modeIndex = s.modeIndex ∧ t.modifierMask = s.modifierMask

/-! ### The mode engine -/

/-- `EMIT(k, m)` is a press report followed at once by a clear report, and a list of them is sent in order (R105;
D11). -/
def Obligations.EmitIsPressThenClear : Prop :=
  ∀ (k : Keycode) (m : Mods) (s : State) (ps : List (Keycode × Mods)),
    emit k m s = { s with
      out := s.out ++ [.setMods m, .setKey k, .send, .setKey 0, .send],
      sink := { mods := m, key := 0, reports := s.sink.reports ++ [(m, k), (m, 0)] } } ∧
    emitAll ((k, m) :: ps) s = emitAll ps (emit k m s) ∧ emitAll [] s = s

/-- Keycode 0 is a neutral clear in every mode: `EMIT(0, m)`, and no context is read or written (R107; D14). -/
def Obligations.KeycodeZeroIsNeutral : Prop :=
  ∀ (s : State) (m : Mods),
    (∀ i ∈ [Instr.modeIdentity 0 m, .modeDigraph 0 m, .modeWordSubstitute 0 m, .modeWordReverse 0 m,
            .modeRandomInterject 0 m], exec i s = .next (emit 0 m s)) ∧
    (∀ (e : Bool) (code : Byte), translateCode s.cfg code = 0 →
      exec (.makeKey e code) s = .next (flagsClear (emit 0 s.modifierMask s)))

/-- Identity forwards the event (R110). -/
def Obligations.IdentityForwards : Prop :=
  ∀ (s : State) (k : Keycode) (m : Mods), exec (.modeIdentity k m) s = .next (emit k m s)

/-- Digraph, a rule fires: the first rule that matches gives its backspaces and its output key and mask; the raw event
becomes the previous one (R111, R112; the record form, the order and the backspace's mask are D22, D21). -/
def Obligations.DigraphFirstMatchFires : Prop :=
  ∀ (s : State) (k : Keycode) (m : Mods) (before after : List DigraphRule) (r : DigraphRule), k ≠ 0 →
    s.cfg.digraphRules = before ++ r :: after →
    (∀ q ∈ before, digraphMatches q s.dgPrevKey s.dgPrevMods k m = false) →
    (r.prevKey = none ∨ (r.prevKey = some s.dgPrevKey ∧ s.dgPrevMods &&& r.prevMask = r.prevVal)) →
    k = r.curKey → m &&& r.curMask = r.curVal →
    let src := if r.src = .prev then s.dgPrevMods else m
    exec (.modeDigraph k m) s = .next { emitAll
        ((if r.bs then [(s.cfg.kcBackspace, 0)] else []) ++ [(r.outKey, ((src &&& r.keep) ||| r.force) ^^^ r.flip)]) s
      with dgPrevKey := k, dgPrevMods := m }

/-- Digraph, no rule matches: the key is forwarded unchanged and becomes the previous one (R112; D22). -/
def Obligations.DigraphForwardsUnmatched : Prop :=
  ∀ (s : State) (k : Keycode) (m : Mods), k ≠ 0 →
    (∀ r ∈ s.cfg.digraphRules,
      ¬ ((r.prevKey = none ∨ (r.prevKey = some s.dgPrevKey ∧ s.dgPrevMods &&& r.prevMask = r.prevVal)) ∧
         k = r.curKey ∧ m &&& r.curMask = r.curVal)) →
    exec (.modeDigraph k m) s = .next { emit k m s with dgPrevKey := k, dgPrevMods := m }

/-- After every Digraph event, fired or not, the previous key and mask are the raw event's (R113). -/
def Obligations.DigraphChainsOnRawInput : Prop :=
  ∀ (s : State) (k : Keycode) (m : Mods), k ≠ 0 →
    ∃ t, exec (.modeDigraph k m) s = .next t ∧ t.dgPrevKey = k ∧ t.dgPrevMods = m

/-- WordSubstitute, backspace: the counter goes down, floored at 0, and the backspace is forwarded (R114). Where
KC_BACKSPACE lies in the alphanumeric range R115 covers it too; that it counts as a backspace there is log 22. -/
def Obligations.WordSubstituteBackspace : Prop :=
  ∀ (s : State) (m : Mods), s.cfg.kcBackspace ≠ 0 →
    exec (.modeWordSubstitute s.cfg.kcBackspace m) s = .next { emit s.cfg.kcBackspace m s with wsCount := s.wsCount - 1 }

/-- WordSubstitute, a letter or digit: the next letter of the word without right Alt while there is one, else the key
itself; the counter goes up to WS_COUNT_MAX (R115; D16, D17, conflict C2; a backspace in the range is no letter,
log 22). -/
def Obligations.WordSubstituteLetter : Prop :=
  ∀ (s : State) (k : Keycode) (m : Mods), k ≠ 0 → k ≠ s.cfg.kcBackspace →
    s.cfg.kcAlnumLo.toNat ≤ k.toNat → k.toNat ≤ s.cfg.kcAlnumHi.toNat →
    (∀ h : s.wsCount < s.cfg.word.length, exec (.modeWordSubstitute k m) s = .next
      { emit s.cfg.word[s.wsCount] (m &&& ~~~s.cfg.mods.ralt) s with wsCount := min (s.wsCount + 1) s.cfg.wsCountMax }) ∧
    (s.cfg.word.length ≤ s.wsCount → exec (.modeWordSubstitute k m) s = .next
      { emit k m s with wsCount := min (s.wsCount + 1) s.cfg.wsCountMax })

/-- WordSubstitute, a boundary key: once a letter has been typed the rest of the word is sent without right Alt, then
the key itself, and the counter is 0 (R116; D17, conflict C2). -/
def Obligations.WordSubstituteBoundary : Prop :=
  ∀ (s : State) (k : Keycode) (m : Mods), k ≠ 0 → k ≠ s.cfg.kcBackspace →
    (k.toNat < s.cfg.kcAlnumLo.toNat ∨ s.cfg.kcAlnumHi.toNat < k.toNat) →
    exec (.modeWordSubstitute k m) s = .next { emitAll
        ((if s.wsCount = 0 then [] else
          (List.range (s.cfg.word.length - s.wsCount)).map fun j =>
            (s.cfg.word.getD (s.wsCount + j) 0, m &&& ~~~s.cfg.mods.ralt)) ++ [(k, m)]) s
      with wsCount := 0 }

/-- WordReverse, backspace: the count goes down, floored at 0, and the backspace is forwarded (R117; D19; also where
KC_BACKSPACE lies in the alphanumeric range, log 22). -/
def Obligations.WordReverseBackspace : Prop :=
  ∀ (s : State) (m : Mods), s.cfg.kcBackspace ≠ 0 →
    exec (.modeWordReverse s.cfg.kcBackspace m) s = .next { emit s.cfg.kcBackspace m s with wrCount := s.wrCount - 1 }

/-- WordReverse, a letter or digit: appended to the buffer while there is room and echoed either way (R118; that a
letter beyond the capacity is still echoed is D20; a backspace in the range is no letter, log 22). -/
def Obligations.WordReverseLetter : Prop :=
  ∀ (s : State) (k : Keycode) (m : Mods), k ≠ 0 → k ≠ s.cfg.kcBackspace →
    s.cfg.kcAlnumLo.toNat ≤ k.toNat → k.toNat ≤ s.cfg.kcAlnumHi.toNat →
    (s.wrCount < s.cfg.wrCap → exec (.modeWordReverse k m) s = .next { emit k m s with
      wrBuf := Memory.write s.wrBuf s.wrCount { key := k, mods := m }, wrCount := s.wrCount + 1 }) ∧
    (s.cfg.wrCap ≤ s.wrCount → exec (.modeWordReverse k m) s = .next (emit k m s))

/-- WordReverse, a boundary key: one backspace for each buffered letter, then the letters last first, each with the
shift bits of the letter whose position it takes and the other bits of its own, then the key; the count is 0 (R120). -/
def Obligations.WordReverseBoundary : Prop :=
  ∀ (s : State) (k : Keycode) (m : Mods) (xs : List WrEntry), k ≠ 0 → k ≠ s.cfg.kcBackspace →
    (k.toNat < s.cfg.kcAlnumLo.toNat ∨ s.cfg.kcAlnumHi.toNat < k.toNat) →
    s.wrCount = xs.length → s.wrCount ≤ s.cfg.wrCap → (∀ j, j < xs.length → Memory.read s.wrBuf j = xs[j]?) →
    let shift := s.cfg.mods.lshift ||| s.cfg.mods.rshift
    let letter := fun j => xs.getD j { key := 0, mods := 0 }
    exec (.modeWordReverse k m) s = .next { emitAll
        (List.replicate xs.length (s.cfg.kcBackspace, 0) ++
          ((List.range xs.length).map fun j =>
            ((letter (xs.length - 1 - j)).key,
             ((letter j).mods &&& shift) ||| ((letter (xs.length - 1 - j)).mods &&& ~~~shift))) ++
          [(k, m)]) s
      with wrCount := 0 }

/-- RandomInterject, a boundary key with a draw given: a space, the letters of the drawn word with exactly left shift,
the key itself; the draw is consumed and nothing else changes (R123; D23, D24). -/
def Obligations.RandomInterjectBoundary : Prop :=
  ∀ (s : State) (k : Keycode) (m : Mods) (r : Nat) (rest : List Nat), k ≠ 0 →
    (k = s.cfg.kcSpace ∨ k = s.cfg.kcEnter ∨ k = s.cfg.kcPeriod ∨ k = s.cfg.kcComma) → s.draws = r :: rest →
    (r < s.cfg.dict.length → exec (.modeRandomInterject k m) s = .next { emitAll
        ([(s.cfg.kcSpace, 0)] ++ (dictWord s.cfg r).map (fun l => (l, s.cfg.mods.lshift)) ++ [(k, m)]) s
      with draws := rest }) ∧
    (s.cfg.dict.length ≤ r → exec (.modeRandomInterject k m) s = .refused .drawOutOfRange)

/-- RandomInterject with no draw listed: some value in range is drawn, whatever it is (R121, D23; the free value and its
counter are the model's, log 10). -/
def Obligations.RandomInterjectDrawsSomeWord : Prop :=
  ∀ (s : State) (k : Keycode) (m : Mods), k ≠ 0 →
    (k = s.cfg.kcSpace ∨ k = s.cfg.kcEnter ∨ k = s.cfg.kcPeriod ∨ k = s.cfg.kcComma) → s.draws = [] →
    0 < s.cfg.dict.length →
    ∃ r, r < s.cfg.dict.length ∧ exec (.modeRandomInterject k m) s = .next { emitAll
        ([(s.cfg.kcSpace, 0)] ++ (dictWord s.cfg r).map (fun l => (l, s.cfg.mods.lshift)) ++ [(k, m)]) s
      with drawCount := s.drawCount + 1 }

/-- The letters of a drawn word are the entry's, in order, up to its first 0 or to DICT_WORD_LEN; a reserved entry has
none (R122, R7; D24). -/
def Obligations.DictionaryWordEndsAtItsTerminator : Prop :=
  ∀ (c : Config) (r : Nat),
    (∀ j, j < (dictWord c r).length →
      (dictWord c r)[j]? = some (dictLetter c r j) ∧ dictLetter c r j ≠ 0) ∧
    ((dictWord c r).length = c.dictWordLen ∨
      ((dictWord c r).length < c.dictWordLen ∧ dictLetter c r (dictWord c r).length = 0)) ∧
    (c.wf = true → r < c.dictFirstPopulated → dictWord c r = [])

/-- RandomInterject, any other key: forwarded unchanged, no draw (R124). -/
def Obligations.RandomInterjectForwardsOthers : Prop :=
  ∀ (s : State) (k : Keycode) (m : Mods),
    k ≠ s.cfg.kcSpace → k ≠ s.cfg.kcEnter → k ≠ s.cfg.kcPeriod → k ≠ s.cfg.kcComma →
    exec (.modeRandomInterject k m) s = .next (emit k m s)

/-! ### The sink, reset and the transactions -/

/-- The sink is only written (R31). The record of the sink and the stream are the model's (log 11; R31 allows the record),
and so is running a sink operation as an instruction (log 4). The three operations do what R31 says, every instruction appends its operations to
the stream, and with another sink in its place everything but the sink comes out the same, the sink having taken the
same operations. -/
def Obligations.SinkIsWrittenInOrderAndNeverRead : Prop :=
  (∀ (s : State) (m : Mods), exec (.setMods m) s =
    .next { s with out := s.out ++ [.setMods m], sink := { s.sink with mods := m } }) ∧
  (∀ (s : State) (k : Keycode), exec (.setKey k) s =
    .next { s with out := s.out ++ [.setKey k], sink := { s.sink with key := k } }) ∧
  (∀ s : State, exec .send s = .next { s with
    out := s.out ++ [.send], sink := { s.sink with reports := s.sink.reports ++ [(s.sink.mods, s.sink.key)] } }) ∧
  (∀ (i : Instr) (s t : State), exec i s = .next t →
    ∃ ops, t.out = s.out ++ ops ∧
      ∀ k : Sink, exec i { s with sink := k } = .next { t with sink := ops.foldl Sink.apply k })

/-- RESET: every register at its reset value; the arrays, the sink and its stream are left as they are (R140, R142; the
values are D6). -/
def Obligations.ResetInitialisesEveryRegister : Prop :=
  ∀ s : State, exec .reset s = .next { s with
    bitCount := 0, shiftRegister := 0, lastEdgeTime := 0, head := 0, tail := 0,
    breakPending := false, extendedPending := false, modifierMask := 0, modeIndex := 0,
    dgPrevKey := 0, dgPrevMods := 0, wsCount := 0, wrCount := 0 }

/-- EDGE, FRAME and POLL complete in every state of R33 whose environment keeps its duties. -/
def Obligations.TransactionsComplete : Prop :=
  ∀ s : State, Invariants s → EnvOk s →
    (∀ (d : Bool) (t : Nat), ∃ u, exec (.edge d t) s = .next u ∧ u.lastEdgeTime = t % 2 ^ s.cfg.timeWidth) ∧
    (∀ (levels : BitVec 11) (t : Nat), ∃ u, exec (.frame levels t) s = .next u ∧
      u.lastEdgeTime = t % 2 ^ s.cfg.timeWidth) ∧
    (∃ u, exec .poll s = .next u ∧ u.polls = s.polls ++ [decide (s.head ≠ s.tail)] ∧
      u.tail = if s.head = s.tail then s.tail else (s.tail + 1) % s.cfg.qsize)

/-- Each agent owns its elements (R47): EDGE and FRAME write only the producer's, POLL none of them, and neither reads
what only the other uses: with those elements replaced the result is the same but for them. -/
def Obligations.AgentsShareOnlyTheQueue : Prop :=
  (∀ (i : Instr) (s u : State), (∃ d t, i = .edge d t) ∨ (∃ levels t, i = .frame levels t) → exec i s = .next u →
    u = withProducer s u ∧ ∀ c : State, exec i (withConsumer s c) = .next (withConsumer u c)) ∧
  (∀ s u : State, exec .poll s = .next u →
    withProducer u s = u ∧ ∀ p : State, exec .poll (withFramer s p) = .next (withFramer u p))

/-- A mode's context is written only while that mode is active: a POLL changes no other mode's context, when the policy
does not clear on a switch (R28, R29; D26, D27). -/
def Obligations.ContextsBelongToTheirMode : Prop :=
  ∀ s t : State, s.cfg.clearContextOnSwitch = false → exec .poll s = .next t →
    (s.modeIndex ≠ 1 → t.dgPrevKey = s.dgPrevKey ∧ t.dgPrevMods = s.dgPrevMods) ∧
    (s.modeIndex ≠ 2 → t.wsCount = s.wsCount) ∧
    (s.modeIndex ≠ 3 → t.wrCount = s.wrCount ∧ t.wrBuf = s.wrBuf)

/-- Only the two mode-switch releases, and RESET, change the mode index; a POLL changes it only on the extended release
of `32` or `21` (R23; D9, D25). -/
def Obligations.OnlyModeSwitchesChangeTheMode : Prop :=
  ∀ (i : Instr) (s t : State), exec i s = .next t → t.modeIndex ≠ s.modeIndex →
    i = .modeNext ∨ i = .modePrev ∨ i = .reset ∨
    (i = .poll ∧ s.breakPending = true ∧ s.extendedPending = true ∧
      (Memory.read s.buf s.tail = some 0x32 ∨ Memory.read s.buf s.tail = some 0x21))

/-- Only a modifier press or release, and RESET, change the modifier mask; a POLL changes it only on a modifier's code,
in its own bit (R22, which the spec derives; D8). -/
def Obligations.OnlyModifiersChangeTheMask : Prop :=
  ∀ (i : Instr) (s t : State), exec i s = .next t → t.modifierMask ≠ s.modifierMask →
    i = .reset ∨ (∃ e bit, (i, bit) ∈ pressRows s.cfg.mods e) ∨ (∃ e bit, (i, bit) ∈ releaseRows s.cfg.mods e) ∨
    (i = .poll ∧ ∃ code bit, Memory.read s.buf s.tail = some code ∧
      modbit s.cfg.mods s.extendedPending code = some bit ∧ t.modifierMask &&& ~~~bit = s.modifierMask &&& ~~~bit)

/-- No instruction writes the parameters, the presented words or a draw that has not been taken (R30, D30; log 1, 3,
10). -/
def Obligations.ParametersAreConstant : Prop :=
  ∀ (i : Instr) (s t : State), exec i s = .next t →
    t.cfg = s.cfg ∧ t.presented = s.presented ∧ t.draws <:+ s.draws

/-! ### The whole machine -/

/-- The invariants of R33 hold at reset. -/
def Obligations.ResetStateMeetsInvariants : Prop :=
  Invariants State.reset ∧ ∀ c : Config, c.wf = true → c.wfModel = true → Invariants (State.resetWith c)

/-- Every step keeps the invariants of R33, from every state that meets them, while the environment presents its own
transactions only. -/
def Obligations.StepKeepsInvariants : Prop :=
  ∀ s t : State, Invariants s → (∀ w ∈ s.presented, environmentWord w = true) → step s = .next t →
    Invariants t ∧ ∀ w ∈ t.presented, environmentWord w = true

/-- The block never stops (R125): from every state that meets the invariants of R33, with the environment keeping its
duties, every step answers a next state, in which the same holds. -/
def Obligations.BlockNeverStops : Prop :=
  ∀ s : State, Invariants s → EnvOk s → ∃ t, step s = .next t ∧ Invariants t ∧ EnvOk t
end

