-- ==== Sys2Proof/Laws/Memory.lean ====
section
/-! SUPPORT. The laws of sparse storage: what a read finds after a write, and that a write keeps the canonical form and the size. -/

namespace Sys2Proof.Machine

variable {α : Type}

@[simp] theorem Memory.read_nil (i : Nat) : Memory.read ([] : Memory α) i = none := rfl

theorem Memory.read_cons (j : Nat) (v : α) (rest : Memory α) (i : Nat) :
    Memory.read ((j, v) :: rest) i = if j = i then some v else Memory.read rest i := rfl

/-- A write is seen at its own index and nowhere else. -/
theorem Memory.read_write (m : Memory α) (i j : Nat) (v : α) :
    Memory.read (Memory.write m i v) j = if j = i then some v else Memory.read m j := by
  induction m with
  | nil => simp [Memory.write, Memory.read_cons, eq_comm]
  | cons p rest ih =>
    obtain ⟨a, w⟩ := p
    simp only [Memory.write]
    split
    · simp [Memory.read_cons, eq_comm]
    · split
      · subst_vars; simp only [Memory.read_cons, eq_comm]; split <;> rfl
      · simp only [Memory.read_cons, ih]
        split <;> split <;> first | rfl | omega

@[simp] theorem Memory.read_write_same (m : Memory α) (i : Nat) (v : α) :
    Memory.read (Memory.write m i v) i = some v := by simp [Memory.read_write]

theorem Memory.read_write_other (m : Memory α) {i j : Nat} (v : α) (h : j ≠ i) :
    Memory.read (Memory.write m i v) j = Memory.read m j := by simp [Memory.read_write, h]

theorem Memory.wf_cons_cons (i j : Nat) (v w : α) (rest : Memory α) :
    Memory.wf ((i, v) :: (j, w) :: rest) = (decide (i < j) && Memory.wf ((j, w) :: rest)) := rfl

/-- Every index below the first is below what a write leaves first, unless it writes lower. -/
theorem Memory.wf_cons_write (a : Nat) (x : α) (m : Memory α) (i : Nat) (v : α)
    (h : Memory.wf ((a, x) :: m) = true) (hi : a < i) (hw : Memory.wf (Memory.write m i v) = true) :
    Memory.wf ((a, x) :: Memory.write m i v) = true := by
  cases m with
  | nil => simp [Memory.write, Memory.wf, hi]
  | cons p rest =>
    obtain ⟨b, w⟩ := p
    simp only [Memory.wf_cons_cons, Bool.and_eq_true, decide_eq_true_eq] at h
    simp only [Memory.write] at hw ⊢
    split
    · simp_all [Memory.wf_cons_cons]
    · split
      · subst_vars; simp_all [Memory.wf_cons_cons]
      · simp_all [Memory.wf_cons_cons]

/-- A write keeps the canonical form. -/
theorem Memory.write_wf (m : Memory α) (i : Nat) (v : α) (h : Memory.wf m = true) :
    Memory.wf (Memory.write m i v) = true := by
  induction m with
  | nil => rfl
  | cons p rest ih =>
    obtain ⟨a, w⟩ := p
    have hr : Memory.wf rest = true := by
      cases rest with
      | nil => rfl
      | cons q r => obtain ⟨b, x⟩ := q; simp_all [Memory.wf_cons_cons]
    simp only [Memory.write]
    split
    · simp_all [Memory.wf_cons_cons]
    · split
      · subst_vars
        cases rest with
        | nil => rfl
        | cons q r => obtain ⟨b, x⟩ := q; simpa [Memory.wf_cons_cons] using h
      · exact Memory.wf_cons_write a w rest i v h (by omega) (ih hr)

/-- A write at an index below `n` keeps every index below `n`. -/
theorem Memory.write_below (n : Nat) (m : Memory α) (i : Nat) (v : α) (hi : i < n) (h : indicesBelow n m = true) :
    indicesBelow n (Memory.write m i v) = true := by
  induction m with
  | nil => simpa [Memory.write, indicesBelow] using hi
  | cons p rest ih =>
    obtain ⟨a, w⟩ := p
    simp only [indicesBelow, List.all_cons, Bool.and_eq_true, decide_eq_true_eq] at h
    simp only [Memory.write]
    split
    · simpa [indicesBelow, hi] using h
    · split
      · simpa [indicesBelow, hi] using h.2
      · simp only [indicesBelow, List.all_cons, Bool.and_eq_true, decide_eq_true_eq]
        exact ⟨h.1, ih h.2⟩

end Sys2Proof.Machine
end

