-- ==== Sys2Proof/Laws/State.lean ====
section
/-! SUPPORT. What each named update of the state leaves in each field. -/

namespace Sys2Proof.Machine

@[simp] theorem sinkAll_bitCount (ops : List SinkOp) (s : State) : (sinkAll ops s).bitCount = s.bitCount := rfl
@[simp] theorem sinkAll_shiftRegister (ops : List SinkOp) (s : State) : (sinkAll ops s).shiftRegister = s.shiftRegister := rfl
@[simp] theorem sinkAll_lastEdgeTime (ops : List SinkOp) (s : State) : (sinkAll ops s).lastEdgeTime = s.lastEdgeTime := rfl
@[simp] theorem sinkAll_buf (ops : List SinkOp) (s : State) : (sinkAll ops s).buf = s.buf := rfl
@[simp] theorem sinkAll_head (ops : List SinkOp) (s : State) : (sinkAll ops s).head = s.head := rfl
@[simp] theorem sinkAll_tail (ops : List SinkOp) (s : State) : (sinkAll ops s).tail = s.tail := rfl
@[simp] theorem sinkAll_breakPending (ops : List SinkOp) (s : State) : (sinkAll ops s).breakPending = s.breakPending := rfl
@[simp] theorem sinkAll_extendedPending (ops : List SinkOp) (s : State) : (sinkAll ops s).extendedPending = s.extendedPending := rfl
@[simp] theorem sinkAll_modifierMask (ops : List SinkOp) (s : State) : (sinkAll ops s).modifierMask = s.modifierMask := rfl
@[simp] theorem sinkAll_modeIndex (ops : List SinkOp) (s : State) : (sinkAll ops s).modeIndex = s.modeIndex := rfl
@[simp] theorem sinkAll_dgPrevKey (ops : List SinkOp) (s : State) : (sinkAll ops s).dgPrevKey = s.dgPrevKey := rfl
@[simp] theorem sinkAll_dgPrevMods (ops : List SinkOp) (s : State) : (sinkAll ops s).dgPrevMods = s.dgPrevMods := rfl
@[simp] theorem sinkAll_wsCount (ops : List SinkOp) (s : State) : (sinkAll ops s).wsCount = s.wsCount := rfl
@[simp] theorem sinkAll_wrCount (ops : List SinkOp) (s : State) : (sinkAll ops s).wrCount = s.wrCount := rfl
@[simp] theorem sinkAll_wrBuf (ops : List SinkOp) (s : State) : (sinkAll ops s).wrBuf = s.wrBuf := rfl
@[simp] theorem sinkAll_cfg (ops : List SinkOp) (s : State) : (sinkAll ops s).cfg = s.cfg := rfl
@[simp] theorem sinkAll_presented (ops : List SinkOp) (s : State) : (sinkAll ops s).presented = s.presented := rfl
@[simp] theorem sinkAll_draws (ops : List SinkOp) (s : State) : (sinkAll ops s).draws = s.draws := rfl
@[simp] theorem sinkAll_drawCount (ops : List SinkOp) (s : State) : (sinkAll ops s).drawCount = s.drawCount := rfl
@[simp] theorem sinkAll_out (ops : List SinkOp) (s : State) : (sinkAll ops s).out = s.out ++ ops := rfl
@[simp] theorem sinkAll_sink (ops : List SinkOp) (s : State) : (sinkAll ops s).sink = ops.foldl Sink.apply s.sink := rfl
@[simp] theorem sinkAll_polls (ops : List SinkOp) (s : State) : (sinkAll ops s).polls = s.polls := rfl

@[simp] theorem emit_bitCount (k : Keycode) (m : Mods) (s : State) : (emit k m s).bitCount = s.bitCount := rfl
@[simp] theorem emit_shiftRegister (k : Keycode) (m : Mods) (s : State) : (emit k m s).shiftRegister = s.shiftRegister := rfl
@[simp] theorem emit_lastEdgeTime (k : Keycode) (m : Mods) (s : State) : (emit k m s).lastEdgeTime = s.lastEdgeTime := rfl
@[simp] theorem emit_buf (k : Keycode) (m : Mods) (s : State) : (emit k m s).buf = s.buf := rfl
@[simp] theorem emit_head (k : Keycode) (m : Mods) (s : State) : (emit k m s).head = s.head := rfl
@[simp] theorem emit_tail (k : Keycode) (m : Mods) (s : State) : (emit k m s).tail = s.tail := rfl
@[simp] theorem emit_breakPending (k : Keycode) (m : Mods) (s : State) : (emit k m s).breakPending = s.breakPending := rfl
@[simp] theorem emit_extendedPending (k : Keycode) (m : Mods) (s : State) : (emit k m s).extendedPending = s.extendedPending := rfl
@[simp] theorem emit_modifierMask (k : Keycode) (m : Mods) (s : State) : (emit k m s).modifierMask = s.modifierMask := rfl
@[simp] theorem emit_modeIndex (k : Keycode) (m : Mods) (s : State) : (emit k m s).modeIndex = s.modeIndex := rfl
@[simp] theorem emit_dgPrevKey (k : Keycode) (m : Mods) (s : State) : (emit k m s).dgPrevKey = s.dgPrevKey := rfl
@[simp] theorem emit_dgPrevMods (k : Keycode) (m : Mods) (s : State) : (emit k m s).dgPrevMods = s.dgPrevMods := rfl
@[simp] theorem emit_wsCount (k : Keycode) (m : Mods) (s : State) : (emit k m s).wsCount = s.wsCount := rfl
@[simp] theorem emit_wrCount (k : Keycode) (m : Mods) (s : State) : (emit k m s).wrCount = s.wrCount := rfl
@[simp] theorem emit_wrBuf (k : Keycode) (m : Mods) (s : State) : (emit k m s).wrBuf = s.wrBuf := rfl
@[simp] theorem emit_cfg (k : Keycode) (m : Mods) (s : State) : (emit k m s).cfg = s.cfg := rfl
@[simp] theorem emit_presented (k : Keycode) (m : Mods) (s : State) : (emit k m s).presented = s.presented := rfl
@[simp] theorem emit_draws (k : Keycode) (m : Mods) (s : State) : (emit k m s).draws = s.draws := rfl
@[simp] theorem emit_drawCount (k : Keycode) (m : Mods) (s : State) : (emit k m s).drawCount = s.drawCount := rfl
@[simp] theorem emit_out (k : Keycode) (m : Mods) (s : State) : (emit k m s).out = s.out ++ emitOps k m := rfl
@[simp] theorem emit_sink (k : Keycode) (m : Mods) (s : State) : (emit k m s).sink = (emitOps k m).foldl Sink.apply s.sink := rfl
@[simp] theorem emit_polls (k : Keycode) (m : Mods) (s : State) : (emit k m s).polls = s.polls := rfl

@[simp] theorem emitAll_bitCount (ps : List (Keycode × Mods)) (s : State) : (emitAll ps s).bitCount = s.bitCount := rfl
@[simp] theorem emitAll_shiftRegister (ps : List (Keycode × Mods)) (s : State) : (emitAll ps s).shiftRegister = s.shiftRegister := rfl
@[simp] theorem emitAll_lastEdgeTime (ps : List (Keycode × Mods)) (s : State) : (emitAll ps s).lastEdgeTime = s.lastEdgeTime := rfl
@[simp] theorem emitAll_buf (ps : List (Keycode × Mods)) (s : State) : (emitAll ps s).buf = s.buf := rfl
@[simp] theorem emitAll_head (ps : List (Keycode × Mods)) (s : State) : (emitAll ps s).head = s.head := rfl
@[simp] theorem emitAll_tail (ps : List (Keycode × Mods)) (s : State) : (emitAll ps s).tail = s.tail := rfl
@[simp] theorem emitAll_breakPending (ps : List (Keycode × Mods)) (s : State) : (emitAll ps s).breakPending = s.breakPending := rfl
@[simp] theorem emitAll_extendedPending (ps : List (Keycode × Mods)) (s : State) : (emitAll ps s).extendedPending = s.extendedPending := rfl
@[simp] theorem emitAll_modifierMask (ps : List (Keycode × Mods)) (s : State) : (emitAll ps s).modifierMask = s.modifierMask := rfl
@[simp] theorem emitAll_modeIndex (ps : List (Keycode × Mods)) (s : State) : (emitAll ps s).modeIndex = s.modeIndex := rfl
@[simp] theorem emitAll_dgPrevKey (ps : List (Keycode × Mods)) (s : State) : (emitAll ps s).dgPrevKey = s.dgPrevKey := rfl
@[simp] theorem emitAll_dgPrevMods (ps : List (Keycode × Mods)) (s : State) : (emitAll ps s).dgPrevMods = s.dgPrevMods := rfl
@[simp] theorem emitAll_wsCount (ps : List (Keycode × Mods)) (s : State) : (emitAll ps s).wsCount = s.wsCount := rfl
@[simp] theorem emitAll_wrCount (ps : List (Keycode × Mods)) (s : State) : (emitAll ps s).wrCount = s.wrCount := rfl
@[simp] theorem emitAll_wrBuf (ps : List (Keycode × Mods)) (s : State) : (emitAll ps s).wrBuf = s.wrBuf := rfl
@[simp] theorem emitAll_cfg (ps : List (Keycode × Mods)) (s : State) : (emitAll ps s).cfg = s.cfg := rfl
@[simp] theorem emitAll_presented (ps : List (Keycode × Mods)) (s : State) : (emitAll ps s).presented = s.presented := rfl
@[simp] theorem emitAll_draws (ps : List (Keycode × Mods)) (s : State) : (emitAll ps s).draws = s.draws := rfl
@[simp] theorem emitAll_drawCount (ps : List (Keycode × Mods)) (s : State) : (emitAll ps s).drawCount = s.drawCount := rfl
@[simp] theorem emitAll_out (ps : List (Keycode × Mods)) (s : State) : (emitAll ps s).out = s.out ++ ps.flatMap fun p => emitOps p.1 p.2 := rfl
@[simp] theorem emitAll_sink (ps : List (Keycode × Mods)) (s : State) : (emitAll ps s).sink = (ps.flatMap fun p => emitOps p.1 p.2).foldl Sink.apply s.sink := rfl
@[simp] theorem emitAll_polls (ps : List (Keycode × Mods)) (s : State) : (emitAll ps s).polls = s.polls := rfl

@[simp] theorem clearFlags_bitCount (s : State) : (clearFlags s).bitCount = s.bitCount := rfl
@[simp] theorem clearFlags_shiftRegister (s : State) : (clearFlags s).shiftRegister = s.shiftRegister := rfl
@[simp] theorem clearFlags_lastEdgeTime (s : State) : (clearFlags s).lastEdgeTime = s.lastEdgeTime := rfl
@[simp] theorem clearFlags_buf (s : State) : (clearFlags s).buf = s.buf := rfl
@[simp] theorem clearFlags_head (s : State) : (clearFlags s).head = s.head := rfl
@[simp] theorem clearFlags_tail (s : State) : (clearFlags s).tail = s.tail := rfl
@[simp] theorem clearFlags_breakPending (s : State) : (clearFlags s).breakPending = false := rfl
@[simp] theorem clearFlags_extendedPending (s : State) : (clearFlags s).extendedPending = false := rfl
@[simp] theorem clearFlags_modifierMask (s : State) : (clearFlags s).modifierMask = s.modifierMask := rfl
@[simp] theorem clearFlags_modeIndex (s : State) : (clearFlags s).modeIndex = s.modeIndex := rfl
@[simp] theorem clearFlags_dgPrevKey (s : State) : (clearFlags s).dgPrevKey = s.dgPrevKey := rfl
@[simp] theorem clearFlags_dgPrevMods (s : State) : (clearFlags s).dgPrevMods = s.dgPrevMods := rfl
@[simp] theorem clearFlags_wsCount (s : State) : (clearFlags s).wsCount = s.wsCount := rfl
@[simp] theorem clearFlags_wrCount (s : State) : (clearFlags s).wrCount = s.wrCount := rfl
@[simp] theorem clearFlags_wrBuf (s : State) : (clearFlags s).wrBuf = s.wrBuf := rfl
@[simp] theorem clearFlags_cfg (s : State) : (clearFlags s).cfg = s.cfg := rfl
@[simp] theorem clearFlags_presented (s : State) : (clearFlags s).presented = s.presented := rfl
@[simp] theorem clearFlags_draws (s : State) : (clearFlags s).draws = s.draws := rfl
@[simp] theorem clearFlags_drawCount (s : State) : (clearFlags s).drawCount = s.drawCount := rfl
@[simp] theorem clearFlags_out (s : State) : (clearFlags s).out = s.out := rfl
@[simp] theorem clearFlags_sink (s : State) : (clearFlags s).sink = s.sink := rfl
@[simp] theorem clearFlags_polls (s : State) : (clearFlags s).polls = s.polls := rfl

@[simp] theorem setBreak_bitCount (s : State) : (setBreak s).bitCount = s.bitCount := rfl
@[simp] theorem setBreak_shiftRegister (s : State) : (setBreak s).shiftRegister = s.shiftRegister := rfl
@[simp] theorem setBreak_lastEdgeTime (s : State) : (setBreak s).lastEdgeTime = s.lastEdgeTime := rfl
@[simp] theorem setBreak_buf (s : State) : (setBreak s).buf = s.buf := rfl
@[simp] theorem setBreak_head (s : State) : (setBreak s).head = s.head := rfl
@[simp] theorem setBreak_tail (s : State) : (setBreak s).tail = s.tail := rfl
@[simp] theorem setBreak_breakPending (s : State) : (setBreak s).breakPending = true := rfl
@[simp] theorem setBreak_extendedPending (s : State) : (setBreak s).extendedPending = s.extendedPending := rfl
@[simp] theorem setBreak_modifierMask (s : State) : (setBreak s).modifierMask = s.modifierMask := rfl
@[simp] theorem setBreak_modeIndex (s : State) : (setBreak s).modeIndex = s.modeIndex := rfl
@[simp] theorem setBreak_dgPrevKey (s : State) : (setBreak s).dgPrevKey = s.dgPrevKey := rfl
@[simp] theorem setBreak_dgPrevMods (s : State) : (setBreak s).dgPrevMods = s.dgPrevMods := rfl
@[simp] theorem setBreak_wsCount (s : State) : (setBreak s).wsCount = s.wsCount := rfl
@[simp] theorem setBreak_wrCount (s : State) : (setBreak s).wrCount = s.wrCount := rfl
@[simp] theorem setBreak_wrBuf (s : State) : (setBreak s).wrBuf = s.wrBuf := rfl
@[simp] theorem setBreak_cfg (s : State) : (setBreak s).cfg = s.cfg := rfl
@[simp] theorem setBreak_presented (s : State) : (setBreak s).presented = s.presented := rfl
@[simp] theorem setBreak_draws (s : State) : (setBreak s).draws = s.draws := rfl
@[simp] theorem setBreak_drawCount (s : State) : (setBreak s).drawCount = s.drawCount := rfl
@[simp] theorem setBreak_out (s : State) : (setBreak s).out = s.out := rfl
@[simp] theorem setBreak_sink (s : State) : (setBreak s).sink = s.sink := rfl
@[simp] theorem setBreak_polls (s : State) : (setBreak s).polls = s.polls := rfl

@[simp] theorem setExtended_bitCount (s : State) : (setExtended s).bitCount = s.bitCount := rfl
@[simp] theorem setExtended_shiftRegister (s : State) : (setExtended s).shiftRegister = s.shiftRegister := rfl
@[simp] theorem setExtended_lastEdgeTime (s : State) : (setExtended s).lastEdgeTime = s.lastEdgeTime := rfl
@[simp] theorem setExtended_buf (s : State) : (setExtended s).buf = s.buf := rfl
@[simp] theorem setExtended_head (s : State) : (setExtended s).head = s.head := rfl
@[simp] theorem setExtended_tail (s : State) : (setExtended s).tail = s.tail := rfl
@[simp] theorem setExtended_breakPending (s : State) : (setExtended s).breakPending = s.breakPending := rfl
@[simp] theorem setExtended_extendedPending (s : State) : (setExtended s).extendedPending = true := rfl
@[simp] theorem setExtended_modifierMask (s : State) : (setExtended s).modifierMask = s.modifierMask := rfl
@[simp] theorem setExtended_modeIndex (s : State) : (setExtended s).modeIndex = s.modeIndex := rfl
@[simp] theorem setExtended_dgPrevKey (s : State) : (setExtended s).dgPrevKey = s.dgPrevKey := rfl
@[simp] theorem setExtended_dgPrevMods (s : State) : (setExtended s).dgPrevMods = s.dgPrevMods := rfl
@[simp] theorem setExtended_wsCount (s : State) : (setExtended s).wsCount = s.wsCount := rfl
@[simp] theorem setExtended_wrCount (s : State) : (setExtended s).wrCount = s.wrCount := rfl
@[simp] theorem setExtended_wrBuf (s : State) : (setExtended s).wrBuf = s.wrBuf := rfl
@[simp] theorem setExtended_cfg (s : State) : (setExtended s).cfg = s.cfg := rfl
@[simp] theorem setExtended_presented (s : State) : (setExtended s).presented = s.presented := rfl
@[simp] theorem setExtended_draws (s : State) : (setExtended s).draws = s.draws := rfl
@[simp] theorem setExtended_drawCount (s : State) : (setExtended s).drawCount = s.drawCount := rfl
@[simp] theorem setExtended_out (s : State) : (setExtended s).out = s.out := rfl
@[simp] theorem setExtended_sink (s : State) : (setExtended s).sink = s.sink := rfl
@[simp] theorem setExtended_polls (s : State) : (setExtended s).polls = s.polls := rfl

@[simp] theorem changeMask_bitCount (m : Mods) (s : State) : (changeMask m s).bitCount = s.bitCount := rfl
@[simp] theorem changeMask_shiftRegister (m : Mods) (s : State) : (changeMask m s).shiftRegister = s.shiftRegister := rfl
@[simp] theorem changeMask_lastEdgeTime (m : Mods) (s : State) : (changeMask m s).lastEdgeTime = s.lastEdgeTime := rfl
@[simp] theorem changeMask_buf (m : Mods) (s : State) : (changeMask m s).buf = s.buf := rfl
@[simp] theorem changeMask_head (m : Mods) (s : State) : (changeMask m s).head = s.head := rfl
@[simp] theorem changeMask_tail (m : Mods) (s : State) : (changeMask m s).tail = s.tail := rfl
@[simp] theorem changeMask_breakPending (m : Mods) (s : State) : (changeMask m s).breakPending = s.breakPending := rfl
@[simp] theorem changeMask_extendedPending (m : Mods) (s : State) : (changeMask m s).extendedPending = s.extendedPending := rfl
@[simp] theorem changeMask_modifierMask (m : Mods) (s : State) : (changeMask m s).modifierMask = m := rfl
@[simp] theorem changeMask_modeIndex (m : Mods) (s : State) : (changeMask m s).modeIndex = s.modeIndex := rfl
@[simp] theorem changeMask_dgPrevKey (m : Mods) (s : State) : (changeMask m s).dgPrevKey = s.dgPrevKey := rfl
@[simp] theorem changeMask_dgPrevMods (m : Mods) (s : State) : (changeMask m s).dgPrevMods = s.dgPrevMods := rfl
@[simp] theorem changeMask_wsCount (m : Mods) (s : State) : (changeMask m s).wsCount = s.wsCount := rfl
@[simp] theorem changeMask_wrCount (m : Mods) (s : State) : (changeMask m s).wrCount = s.wrCount := rfl
@[simp] theorem changeMask_wrBuf (m : Mods) (s : State) : (changeMask m s).wrBuf = s.wrBuf := rfl
@[simp] theorem changeMask_cfg (m : Mods) (s : State) : (changeMask m s).cfg = s.cfg := rfl
@[simp] theorem changeMask_presented (m : Mods) (s : State) : (changeMask m s).presented = s.presented := rfl
@[simp] theorem changeMask_draws (m : Mods) (s : State) : (changeMask m s).draws = s.draws := rfl
@[simp] theorem changeMask_drawCount (m : Mods) (s : State) : (changeMask m s).drawCount = s.drawCount := rfl
@[simp] theorem changeMask_out (m : Mods) (s : State) : (changeMask m s).out = s.out ++ [.setMods m, .send] := rfl
@[simp] theorem changeMask_sink (m : Mods) (s : State) : (changeMask m s).sink = [SinkOp.setMods m, .send].foldl Sink.apply s.sink := rfl
@[simp] theorem changeMask_polls (m : Mods) (s : State) : (changeMask m s).polls = s.polls := rfl

@[simp] theorem clearContexts_bitCount (s : State) : (clearContexts s).bitCount = s.bitCount := rfl
@[simp] theorem clearContexts_shiftRegister (s : State) : (clearContexts s).shiftRegister = s.shiftRegister := rfl
@[simp] theorem clearContexts_lastEdgeTime (s : State) : (clearContexts s).lastEdgeTime = s.lastEdgeTime := rfl
@[simp] theorem clearContexts_buf (s : State) : (clearContexts s).buf = s.buf := rfl
@[simp] theorem clearContexts_head (s : State) : (clearContexts s).head = s.head := rfl
@[simp] theorem clearContexts_tail (s : State) : (clearContexts s).tail = s.tail := rfl
@[simp] theorem clearContexts_breakPending (s : State) : (clearContexts s).breakPending = s.breakPending := rfl
@[simp] theorem clearContexts_extendedPending (s : State) : (clearContexts s).extendedPending = s.extendedPending := rfl
@[simp] theorem clearContexts_modifierMask (s : State) : (clearContexts s).modifierMask = s.modifierMask := rfl
@[simp] theorem clearContexts_modeIndex (s : State) : (clearContexts s).modeIndex = s.modeIndex := rfl
@[simp] theorem clearContexts_dgPrevKey (s : State) : (clearContexts s).dgPrevKey = 0 := rfl
@[simp] theorem clearContexts_dgPrevMods (s : State) : (clearContexts s).dgPrevMods = 0 := rfl
@[simp] theorem clearContexts_wsCount (s : State) : (clearContexts s).wsCount = 0 := rfl
@[simp] theorem clearContexts_wrCount (s : State) : (clearContexts s).wrCount = 0 := rfl
@[simp] theorem clearContexts_wrBuf (s : State) : (clearContexts s).wrBuf = s.wrBuf := rfl
@[simp] theorem clearContexts_cfg (s : State) : (clearContexts s).cfg = s.cfg := rfl
@[simp] theorem clearContexts_presented (s : State) : (clearContexts s).presented = s.presented := rfl
@[simp] theorem clearContexts_draws (s : State) : (clearContexts s).draws = s.draws := rfl
@[simp] theorem clearContexts_drawCount (s : State) : (clearContexts s).drawCount = s.drawCount := rfl
@[simp] theorem clearContexts_out (s : State) : (clearContexts s).out = s.out := rfl
@[simp] theorem clearContexts_sink (s : State) : (clearContexts s).sink = s.sink := rfl
@[simp] theorem clearContexts_polls (s : State) : (clearContexts s).polls = s.polls := rfl

@[simp] theorem returnConsumed_bitCount (v : Bool) (s : State) : (returnConsumed v s).bitCount = s.bitCount := rfl
@[simp] theorem returnConsumed_shiftRegister (v : Bool) (s : State) : (returnConsumed v s).shiftRegister = s.shiftRegister := rfl
@[simp] theorem returnConsumed_lastEdgeTime (v : Bool) (s : State) : (returnConsumed v s).lastEdgeTime = s.lastEdgeTime := rfl
@[simp] theorem returnConsumed_buf (v : Bool) (s : State) : (returnConsumed v s).buf = s.buf := rfl
@[simp] theorem returnConsumed_head (v : Bool) (s : State) : (returnConsumed v s).head = s.head := rfl
@[simp] theorem returnConsumed_tail (v : Bool) (s : State) : (returnConsumed v s).tail = s.tail := rfl
@[simp] theorem returnConsumed_breakPending (v : Bool) (s : State) : (returnConsumed v s).breakPending = s.breakPending := rfl
@[simp] theorem returnConsumed_extendedPending (v : Bool) (s : State) : (returnConsumed v s).extendedPending = s.extendedPending := rfl
@[simp] theorem returnConsumed_modifierMask (v : Bool) (s : State) : (returnConsumed v s).modifierMask = s.modifierMask := rfl
@[simp] theorem returnConsumed_modeIndex (v : Bool) (s : State) : (returnConsumed v s).modeIndex = s.modeIndex := rfl
@[simp] theorem returnConsumed_dgPrevKey (v : Bool) (s : State) : (returnConsumed v s).dgPrevKey = s.dgPrevKey := rfl
@[simp] theorem returnConsumed_dgPrevMods (v : Bool) (s : State) : (returnConsumed v s).dgPrevMods = s.dgPrevMods := rfl
@[simp] theorem returnConsumed_wsCount (v : Bool) (s : State) : (returnConsumed v s).wsCount = s.wsCount := rfl
@[simp] theorem returnConsumed_wrCount (v : Bool) (s : State) : (returnConsumed v s).wrCount = s.wrCount := rfl
@[simp] theorem returnConsumed_wrBuf (v : Bool) (s : State) : (returnConsumed v s).wrBuf = s.wrBuf := rfl
@[simp] theorem returnConsumed_cfg (v : Bool) (s : State) : (returnConsumed v s).cfg = s.cfg := rfl
@[simp] theorem returnConsumed_presented (v : Bool) (s : State) : (returnConsumed v s).presented = s.presented := rfl
@[simp] theorem returnConsumed_draws (v : Bool) (s : State) : (returnConsumed v s).draws = s.draws := rfl
@[simp] theorem returnConsumed_drawCount (v : Bool) (s : State) : (returnConsumed v s).drawCount = s.drawCount := rfl
@[simp] theorem returnConsumed_out (v : Bool) (s : State) : (returnConsumed v s).out = s.out := rfl
@[simp] theorem returnConsumed_sink (v : Bool) (s : State) : (returnConsumed v s).sink = s.sink := rfl
@[simp] theorem returnConsumed_polls (v : Bool) (s : State) : (returnConsumed v s).polls = s.polls ++ [v] := rfl

end Sys2Proof.Machine
end

