-- ==== Sys2Proof/Laws/Ops.lean ====
section
/-! SUPPORT. One lemma for each shared operation: all it can answer, and when. -/

namespace Sys2Proof.Machine

/-! ### Sequencing -/

@[simp] theorem andThen_next {α β : Type} (a : α) (f : α → Answer β) : andThen (.next a) f = f a := rfl
@[simp] theorem andThen_fault {α β : Type} (r : Fault) (f : α → Answer β) : andThen (.fault r) f = .fault r := rfl
@[simp] theorem andThen_refused {α β : Type} (r : Refusal) (f : α → Answer β) : andThen (.refused r) f = .refused r := rfl

/-- A sequence answers a value exactly when both its parts do. -/
theorem andThen_eq_next {α β : Type} {x : Answer α} {f : α → Answer β} {b : β} :
    andThen x f = .next b ↔ ∃ a, x = .next a ∧ f a = .next b := by
  cases x <;> simp [andThen]

theorem andThen_assoc {α β γ : Type} (x : Answer α) (f : α → Answer β) (g : β → Answer γ) :
    andThen (andThen x f) g = andThen x fun a => andThen (f a) g := by
  cases x <;> rfl

/-! ### Storage accesses -/

theorem qRead_eq_next {i : Nat} {s : State} {v : Byte} :
    qRead i s = .next v ↔ i < s.cfg.qsize ∧ Memory.read s.buf i = some v := by
  unfold qRead
  by_cases h : i < s.cfg.qsize <;> simp only [h, if_true, if_false, true_and, false_and, iff_false]
  · cases hm : Memory.read s.buf i <;> simp
  · simp

theorem qWrite_eq_next {i : Nat} {v : Byte} {s t : State} :
    qWrite i v s = .next t ↔ i < s.cfg.qsize ∧ t = { s with buf := Memory.write s.buf i v } := by
  unfold qWrite
  by_cases h : i < s.cfg.qsize <;> simp [h, eq_comm]

theorem bufRead_eq_next {i : Nat} {s : State} {x : WrEntry} :
    bufRead i s = .next x ↔ i < s.cfg.wrCap ∧ Memory.read s.wrBuf i = some x := by
  unfold bufRead
  by_cases h : i < s.cfg.wrCap <;> simp only [h, if_true, if_false, true_and, false_and, iff_false]
  · cases hm : Memory.read s.wrBuf i <;> simp
  · simp

theorem bufWrite_eq_next {i : Nat} {x : WrEntry} {s t : State} :
    bufWrite i x s = .next t ↔ i < s.cfg.wrCap ∧ t = { s with wrBuf := Memory.write s.wrBuf i x } := by
  unfold bufWrite
  by_cases h : i < s.cfg.wrCap <;> simp [h, eq_comm]

/-- Reading `n` entries from `i` answers their values exactly when all are in range and written. -/
theorem bufReadFrom_eq_next {s : State} {i n : Nat} {xs : List WrEntry} :
    bufReadFrom s i n = .next xs ↔
      xs.length = n ∧ ∀ j, j < n → i + j < s.cfg.wrCap ∧ Memory.read s.wrBuf (i + j) = xs[j]? := by
  induction n generalizing i xs with
  | zero => cases xs <;> simp [bufReadFrom]
  | succ n ih =>
    simp only [bufReadFrom, andThen_eq_next, bufRead_eq_next]
    constructor
    · rintro ⟨x, ⟨hi, hx⟩, ys, hy, hxs⟩
      obtain ⟨hlen, hall⟩ := ih.1 hy
      cases hxs
      refine ⟨by simp [hlen], fun j hj => ?_⟩
      cases j with
      | zero => exact ⟨hi, by simpa using hx⟩
      | succ j =>
        have := hall j (by omega)
        rw [show i + (j + 1) = i + 1 + j by omega]
        simpa using this
    · rintro ⟨hlen, hall⟩
      cases xs with
      | nil => simp at hlen
      | cons x ys =>
        refine ⟨x, by simpa using hall 0 (by omega), ys, ih.2 ⟨by simpa using hlen, fun j hj => ?_⟩, rfl⟩
        have := hall (j + 1) (by omega)
        rw [show i + 1 + j = i + (j + 1) by omega]
        simpa using this

/-- Reading the first `n` entries completes when all of them are in range and written. -/
theorem bufReadFrom_completes {s : State} {n : Nat} (hc : n ≤ s.cfg.wrCap)
    (hw : ∀ i, i < n → (Memory.read s.wrBuf i).isSome = true) : ∃ xs, bufReadFrom s 0 n = .next xs := by
  refine ⟨(List.range n).map fun i => (Memory.read s.wrBuf i).getD { key := 0, mods := 0 }, bufReadFrom_eq_next.2 ?_⟩
  refine ⟨by simp, fun j hj => ⟨by omega, ?_⟩⟩
  obtain ⟨x, hx⟩ := Option.isSome_iff_exists.1 (hw j hj)
  simp [hj, hx]

/-! ### The queue -/

/-- All a push can answer: a drop that changes nothing, or one entry stored at `head`. -/
theorem push_eq_next {code : Byte} {s t : State} {ok : Bool} :
    push code s = .next (ok, t) ↔
      (ok = false ∧ (s.head + 1) % s.cfg.qsize = s.tail ∧ t = s) ∨
      (ok = true ∧ (s.head + 1) % s.cfg.qsize ≠ s.tail ∧ s.head < s.cfg.qsize ∧
        t = { s with buf := Memory.write s.buf s.head code, head := (s.head + 1) % s.cfg.qsize }) := by
  unfold push
  by_cases h : (s.head + 1) % s.cfg.qsize = s.tail
  · simp [h, eq_comm]
  · by_cases hq : s.head < s.cfg.qsize
    · simp [h, qWrite, hq, eq_comm]
    · simp [h, qWrite, hq]

theorem push_of_full {code : Byte} {s : State} (h : (s.head + 1) % s.cfg.qsize = s.tail) :
    push code s = .next (false, s) := push_eq_next.2 (.inl ⟨rfl, h, rfl⟩)

theorem push_of_room {code : Byte} {s : State} (h : (s.head + 1) % s.cfg.qsize ≠ s.tail) (hh : s.head < s.cfg.qsize) :
    push code s = .next (true, { s with
      buf := Memory.write s.buf s.head code, head := (s.head + 1) % s.cfg.qsize }) :=
  push_eq_next.2 (.inr ⟨rfl, h, hh, rfl⟩)

/-- All a pop can answer: none from an empty queue, or the entry at `tail`. -/
theorem pop_eq_next {s t : State} {r : Option Byte} :
    pop s = .next (r, t) ↔
      (s.head = s.tail ∧ r = none ∧ t = s) ∨
      (∃ code, s.head ≠ s.tail ∧ s.tail < s.cfg.qsize ∧ Memory.read s.buf s.tail = some code ∧ r = some code ∧
        t = { s with tail := (s.tail + 1) % s.cfg.qsize }) := by
  unfold pop
  by_cases h : s.head = s.tail
  · simp [h, eq_comm]
  · simp only [h, if_false, andThen_eq_next, qRead_eq_next, false_and, false_or]
    constructor
    · rintro ⟨code, ⟨h1, h2⟩, h3⟩; cases h3; exact ⟨code, h, h1, h2, rfl, rfl⟩
    · rintro ⟨code, -, h1, h2, rfl, rfl⟩; exact ⟨code, ⟨h1, h2⟩, rfl⟩

theorem pop_of_empty {s : State} (h : s.head = s.tail) : pop s = .next (none, s) :=
  pop_eq_next.2 (.inl ⟨h, rfl, rfl⟩)

theorem pop_of_code {code : Byte} {s : State} (h : s.head ≠ s.tail) (ht : s.tail < s.cfg.qsize)
    (hr : Memory.read s.buf s.tail = some code) :
    pop s = .next (some code, { s with tail := (s.tail + 1) % s.cfg.qsize }) :=
  pop_eq_next.2 (.inr ⟨code, h, ht, hr, rfl, rfl⟩)

/-! ### The random source -/

/-- All a draw can answer: the next listed value, or some value in range where none is listed. -/
theorem draw_eq_next {s t : State} {r : Nat} (h : draw s = .next (r, t)) :
    r < s.cfg.dictSize ∧
    ((s.draws = r :: t.draws ∧ t = { s with draws := t.draws }) ∨
     (s.draws = [] ∧ t = { s with drawCount := s.drawCount + 1 })) := by
  unfold draw at h
  cases hd : s.draws with
  | nil =>
    simp only [hd] at h
    split at h
    · cases h; exact ⟨‹_›, .inr ⟨rfl, rfl⟩⟩
    · cases h
  | cons x rest =>
    simp only [hd] at h
    split at h
    · cases h; exact ⟨‹_›, .inl ⟨rfl, rfl⟩⟩
    · cases h

/-- A draw completes when the next listed value is in range, or none is listed and the dictionary is not empty. -/
theorem draw_completes {s : State} (hd : ∀ r ∈ s.draws, r < s.cfg.dictSize) (hs : 0 < s.cfg.dictSize) :
    ∃ r t, draw s = .next (r, t) := by
  unfold draw
  cases h : s.draws with
  | nil => simp [Nat.mod_lt _ hs]
  | cons x rest => simp [hd x (by simp [h])]

end Sys2Proof.Machine
end

