-- ==== Sys2Proof/Laws/Decoder.lean ====
section
/-! SUPPORT. The decoder step runs exactly the instruction its decode word stands for (spec/42_decoder.md R84). -/

namespace Sys2Proof.Machine

/-- Every named row of the opcode map runs its own instruction. -/
theorem runRow_namedRows : ∀ r ∈ namedRows, ∀ (b e : Bool) (s : State), runRow (r.instr b e) s = exec (r.instr b e) s := by
  simp only [namedRows, rowsMakeModifier, rowsBreakModifier, rowsMakeNav, rowsBreakNav, rowsModeSwitch,
    List.cons_append, List.nil_append, List.forall_mem_cons]
  refine ⟨?_, ?_, ?_, ?_, ?_, ?_, ?_, ?_, ?_, ?_, ?_, ?_, ?_, ?_, ?_, ?_, ?_, ?_, ?_, ?_, ?_, ?_, ?_, ?_, ?_, ?_, ?_,
    ?_, ?_, ?_, ?_, ?_, ?_, ?_, ?_, ?_, ?_, ?_, ?_, ?_, by simp⟩ <;> (intros; rfl)

/-- A decode word is a named row's instruction or one of the two catch-alls. -/
theorem decodeDecodeWord_cases (w : BitVec 10) :
    (∃ r ∈ namedRows, w &&& r.mask = r.mtch ∧ decodeDecodeWord w = r.instr (wordB w) (wordE w)) ∨
    ((∀ r ∈ namedRows, w &&& r.mask ≠ r.mtch) ∧
      decodeDecodeWord w = if wordB w then .breakKey (wordE w) (wordS w) else .makeKey (wordE w) (wordS w)) := by
  unfold decodeDecodeWord
  split
  · rename_i r h
    refine .inl ⟨r, List.mem_of_find?_eq_some h, ?_, rfl⟩
    simpa [OpcodeRow.matches] using List.find?_some h
  · rename_i h
    refine .inr ⟨fun r hr => ?_, rfl⟩
    simpa [OpcodeRow.matches] using List.find?_eq_none.1 h r hr

/-- The decoder step is the execution of the decode word's instruction. -/
theorem runRow_decodeDecodeWord (w : BitVec 10) (s : State) :
    runRow (decodeDecodeWord w) s = exec (decodeDecodeWord w) s := by
  obtain ⟨r, hr, -, h⟩ | ⟨-, h⟩ := decodeDecodeWord_cases w
  · rw [h]; exact runRow_namedRows r hr _ _ s
  · rw [h]; split <;> rfl

@[simp] theorem wordB_decodeWordOf (b e : Bool) (s : Byte) : wordB (decodeWordOf b e s) = b := by
  revert b e s; decide +kernel
@[simp] theorem wordE_decodeWordOf (b e : Bool) (s : Byte) : wordE (decodeWordOf b e s) = e := by
  revert b e s; decide +kernel
@[simp] theorem wordS_decodeWordOf (b e : Bool) (s : Byte) : wordS (decodeWordOf b e s) = s := by
  revert b e s; decide +kernel

end Sys2Proof.Machine
end

