-- ==== Sys2Proof/Laws/Framer.lean ====
section
/-! SUPPORT. The framer: the sampled bit, the timeout with no gap, and runs of edges inside one frame (spec/40_bitframer.md). -/

namespace Sys2Proof.Machine

/-- `v[i] = b` changes bit `i` and no other (R73). -/
theorem getLsbD_setBit (v : Byte) (i j : Nat) (b : Bool) (hj : j < 8) :
    (setBit v i b).getLsbD j = if j = i then b else v.getLsbD j := by
  have h1 : (1#8 <<< i).getLsbD j = decide (j = i) := by
    rw [BitVec.getLsbD_shiftLeft, BitVec.getLsbD_one]
    by_cases h : j = i
    · subst h; simp [hj]
    · simp [hj, h]; omega
  cases b
  · simp only [setBit, Bool.false_eq_true, if_false, BitVec.getLsbD_and, BitVec.getLsbD_not, h1, hj]
    by_cases h : j = i <;> simp [h]
  · simp only [setBit, if_true, BitVec.getLsbD_or, h1]; by_cases h : j = i <;> simp [h]

/-- Edge index `j + 1` samples into bit `j` (R73, R74). -/
theorem getLsbD_sampleBit (bc : Nat) (sr : Byte) (d : Bool) (j : Nat) (hj : j < 8) :
    (sampleBit bc sr d).getLsbD j = if j + 1 = bc then d else sr.getLsbD j := by
  unfold sampleBit
  split
  · rw [getLsbD_setBit _ _ _ _ hj]; congr 1; simp; omega
  · rw [if_neg (by omega)]

/-- The time since the last edge, for a last edge time of TIME_WIDTH bits (R70). -/
theorem elapsed_of_lt {w last : Nat} (t : Nat) (h : last < 2 ^ w) : elapsed w last t = (t + 2 ^ w - last) % 2 ^ w := by
  rw [elapsed, Nat.mod_eq_of_lt h]

/-- No time passes between edges at the same time. -/
@[simp] theorem elapsed_self (w t : Nat) : elapsed w (t % 2 ^ w) (t % 2 ^ w) = 0 := by
  have := Nat.mod_lt t (Nat.two_pow_pos w)
  simp [elapsed]

/-- The edge, given the frame in progress as it finds it. -/
theorem edge_of_frameAtEdge {d : Bool} {t bc : Nat} {sr : Byte} {s : State}
    (h : frameAtEdge (t % 2 ^ s.cfg.timeWidth) s = (bc, sr)) :
    edge d t s = finishEdge (bc + 1) (sampleBit bc sr d) { s with lastEdgeTime := t % 2 ^ s.cfg.timeWidth } := by
  simp only [edge, h]

/-- An edge leaves everything as it is but the framer's elements and, at the last edge of a frame, one queue entry. -/
theorem edge_eq_next {d : Bool} {t : Nat} {s u : State} (h : edge d t s = .next u) :
    ∃ bc sr, frameAtEdge (t % 2 ^ s.cfg.timeWidth) s = (bc, sr) ∧
      ((bc + 1 ≠ s.cfg.frameEdges ∧ u = { s with
          lastEdgeTime := t % 2 ^ s.cfg.timeWidth, bitCount := bc + 1, shiftRegister := sampleBit bc sr d }) ∨
       (bc + 1 = s.cfg.frameEdges ∧ ∃ ok v, push (sampleBit bc sr d) s = .next (ok, v) ∧ u = { v with
          lastEdgeTime := t % 2 ^ s.cfg.timeWidth, bitCount := 0, shiftRegister := 0 })) := by
  refine ⟨_, _, rfl, ?_⟩
  simp only [edge, finishEdge] at h
  split at h
  · refine .inr ⟨‹_›, ?_⟩
    obtain ⟨⟨ok, v⟩, h1, h2⟩ := andThen_eq_next.1 h
    cases h2
    obtain ⟨rfl, hf, rfl⟩ | ⟨rfl, hf, hh, rfl⟩ := push_eq_next.1 h1
    · exact ⟨_, _, push_of_full hf, rfl⟩
    · exact ⟨_, _, push_of_room hf hh, rfl⟩
  · cases h; exact .inl ⟨‹_›, rfl⟩

theorem edges_append (a b : List Bool) (t : Nat) (s : State) :
    edges (a ++ b) t s = andThen (edges a t s) (edges b t) := by
  induction a generalizing s with
  | nil => rfl
  | cons d a ih => simp only [List.cons_append, edges, andThen_assoc]; congr 1; funext u; exact ih u

/-- A run of edges that stays inside one frame, with no gap: each level goes into the bit of its edge index. -/
theorem edges_inside_frame (ds : List Bool) (t : Nat) (s : State) (hl : s.lastEdgeTime = t % 2 ^ s.cfg.timeWidth)
    (hb : s.bitCount + ds.length < s.cfg.frameEdges) :
    ∃ sr : Byte,
      edges ds t s = .next { s with bitCount := s.bitCount + ds.length, shiftRegister := sr } ∧
      ∀ j, j < 8 → sr.getLsbD j =
        if h : s.bitCount ≤ j + 1 ∧ j + 1 - s.bitCount < ds.length then ds[j + 1 - s.bitCount]'h.2
        else s.shiftRegister.getLsbD j := by
  induction ds generalizing s with
  | nil => exact ⟨s.shiftRegister, rfl, by simp⟩
  | cons d ds ih =>
    have e : edge d t s = .next { s with
        bitCount := s.bitCount + 1, shiftRegister := sampleBit s.bitCount s.shiftRegister d } := by
      simp only [edge, frameAtEdge, hl, elapsed_self, Nat.not_lt_zero, gt_iff_lt, if_false, finishEdge]
      rw [if_neg (by simp at hb ⊢; omega)]
    obtain ⟨sr, h1, h2⟩ := ih { s with
      bitCount := s.bitCount + 1, shiftRegister := sampleBit s.bitCount s.shiftRegister d } hl (by simp at hb ⊢; omega)
    refine ⟨sr, ?_, ?_⟩
    · simp only [edges, e, andThen_next, h1, List.length_cons]; simp; omega
    · intro j hj
      rw [h2 j hj]
      simp only [getLsbD_sampleBit _ _ _ _ hj]
      by_cases hc : j + 1 = s.bitCount
      · simp [hc]
      · by_cases hd : s.bitCount + 1 ≤ j + 1
        · have : j + 1 - s.bitCount = (j + 1 - (s.bitCount + 1)) + 1 := by omega
          simp only [this, List.length_cons, List.getElem_cons_succ, hc, if_false]
          by_cases hx : j + 1 - (s.bitCount + 1) < ds.length
          · rw [dif_pos ⟨by omega, hx⟩, dif_pos ⟨by omega, by omega⟩]
          · rw [dif_neg (by omega), dif_neg (by omega)]
        · rw [dif_neg (by omega), dif_neg (by omega), if_neg hc]

end Sys2Proof.Machine
end

