-- ==== Sys2Proof/Laws/Modes.lean ====
section
/-! SUPPORT. Keycode 0 and the dispatch of the mode engine (spec/44_mode_engine.md R106, R107). -/

namespace Sys2Proof.Machine

@[simp] theorem modeEvent_zero (mode : Keycode → Mods → State → Answer State) (m : Mods) (s : State) :
    modeEvent mode 0 m s = .next (emit 0 m s) := rfl

theorem modeEvent_of_ne_zero {mode : Keycode → Mods → State → Answer State} {k : Keycode} {m : Mods} {s : State}
    (h : k ≠ 0) : modeEvent mode k m s = mode k m s := if_neg h

/-- The dispatch is one of the five modes' handling of the event, or the fault of an index that is no mode. -/
theorem modeApply_cases (k : Keycode) (m : Mods) (s : State) :
    (k = 0 ∧ modeApply k m s = .next (emit 0 m s)) ∨
    (k ≠ 0 ∧ s.modeIndex = 0 ∧ modeApply k m s = identity k m s) ∨
    (k ≠ 0 ∧ s.modeIndex = 1 ∧ modeApply k m s = digraph k m s) ∨
    (k ≠ 0 ∧ s.modeIndex = 2 ∧ modeApply k m s = wordSubstitute k m s) ∨
    (k ≠ 0 ∧ s.modeIndex = 3 ∧ modeApply k m s = wordReverse k m s) ∨
    (k ≠ 0 ∧ s.modeIndex = 4 ∧ modeApply k m s = randomInterject k m s) ∨
    (k ≠ 0 ∧ 5 ≤ s.modeIndex.toNat ∧ modeApply k m s = .fault .modeIndexUnreachable) := by
  by_cases hk : k = 0
  · exact .inl ⟨hk, by subst hk; rfl⟩
  · have e : modeApply k m s = match s.modeIndex.toNat with
        | 0 => execModeIdentity k m s
        | 1 => execModeDigraph k m s
        | 2 => execModeWordSubstitute k m s
        | 3 => execModeWordReverse k m s
        | 4 => execModeRandomInterject k m s
        | _ => .fault .modeIndexUnreachable := if_neg hk
    rw [e]
    have idx : ∀ i : BitVec 3, i = 0 ∨ i = 1 ∨ i = 2 ∨ i = 3 ∨ i = 4 ∨ 5 ≤ i.toNat := by decide
    simp only [execModeIdentity, execModeDigraph, execModeWordSubstitute, execModeWordReverse, execModeRandomInterject,
      modeEvent_of_ne_zero hk]
    rcases idx s.modeIndex with h | h | h | h | h | h
    · exact .inr (.inl ⟨hk, h, by simp [h]⟩)
    · exact .inr (.inr (.inl ⟨hk, h, by simp [h]⟩))
    · exact .inr (.inr (.inr (.inl ⟨hk, h, by simp [h]⟩)))
    · exact .inr (.inr (.inr (.inr (.inl ⟨hk, h, by simp [h]⟩))))
    · exact .inr (.inr (.inr (.inr (.inr (.inl ⟨hk, h, by simp [h]⟩)))))
    · refine .inr (.inr (.inr (.inr (.inr (.inr ⟨hk, h, ?_⟩)))))
      split <;> first | omega | rfl

end Sys2Proof.Machine
end

