-- ==== Sys2Proof/Laws/Queue.lean ====
section
/-! SUPPORT. The ring arithmetic of the FrameQueue, and what a push and a pop leave of the invariants (spec/41_framequeue.md, spec/10_state.md R33). -/

namespace Sys2Proof.Machine

/-- The count of R81 without the remainder. -/
theorem ring_count {h t q : Nat} (hh : h < q) (ht : t < q) : (h + q - t) % q = if t ≤ h then h - t else h + q - t := by
  split
  · rw [show h + q - t = (h - t) + q by omega, Nat.add_mod_right, Nat.mod_eq_of_lt (by omega)]
  · rw [Nat.mod_eq_of_lt (by omega)]

/-- The next index of the ring (R79, R80). -/
theorem ring_succ {h q : Nat} (hh : h < q) : (h + 1) % q = if h + 1 = q then 0 else h + 1 := by
  split
  · rename_i e; rw [e, Nat.mod_self]
  · rw [Nat.mod_eq_of_lt (by omega)]

/-- The index of the `i`-th unread entry (R33 item 2). -/
theorem ring_index {t i q : Nat} (ht : t < q) (hi : i ≤ q) : (t + i) % q = if t + i < q then t + i else t + i - q := by
  split
  · rw [Nat.mod_eq_of_lt ‹_›]
  · rw [show t + i = (t + i - q) + q by omega, Nat.add_mod_right, Nat.mod_eq_of_lt (by omega)]; omega

/-- The full test of R79 by the count. -/
theorem ring_full_iff {h t q : Nat} (hh : h < q) (ht : t < q) : (h + 1) % q = t ↔ (h + q - t) % q = q - 1 := by
  rw [ring_count hh ht, ring_succ hh]; split <;> split <;> omega

theorem queueCount_eq (s : State) : queueCount s = (s.head + s.cfg.qsize - s.tail) % s.cfg.qsize := rfl

theorem queueCount_lt {s : State} (hh : s.head < s.cfg.qsize) : queueCount s < s.cfg.qsize := Nat.mod_lt _ (by omega)

/-- A stored code makes the count one larger. -/
theorem queueCount_push {s : State} (hh : s.head < s.cfg.qsize) (ht : s.tail < s.cfg.qsize) (hr : (s.head + 1) % s.cfg.qsize ≠ s.tail) (b : Memory Byte) :
    queueCount { s with buf := b, head := (s.head + 1) % s.cfg.qsize } = queueCount s + 1 := by
  have h1 : (s.head + 1) % s.cfg.qsize < s.cfg.qsize := Nat.mod_lt _ (by omega)
  simp only [queueCount]
  rw [ring_count h1 ht, ring_count hh ht]; rw [ring_succ hh] at *; split <;> split <;> split <;> simp_all <;> omega

/-- The entry after the last unread one is the one at `head`. -/
theorem tail_add_queueCount {s : State} (hh : s.head < s.cfg.qsize) (ht : s.tail < s.cfg.qsize) : (s.tail + queueCount s) % s.cfg.qsize = s.head := by
  have := queueCount_lt hh; have e := queueCount_eq s; rw [ring_count hh ht] at e
  rw [ring_index ht (le_of_lt this)]; split at e <;> split <;> omega

/-- No unread entry is the one at `head`. -/
theorem unread_index_ne_head {s : State} (hh : s.head < s.cfg.qsize) (ht : s.tail < s.cfg.qsize) {i : Nat} (hi : i < queueCount s) : (s.tail + i) % s.cfg.qsize ≠ s.head := by
  have := queueCount_lt hh
  have e := queueCount_eq s; rw [ring_count hh ht] at e
  rw [ring_index ht (by omega)]; split at e <;> split <;> omega

theorem unread_length (s : State) : (unread s).length = queueCount s := by simp [unread]

/-- A stored code is the last unread entry; those before it stand. -/
theorem unreadAt_push {s : State} (hh : s.head < s.cfg.qsize) (ht : s.tail < s.cfg.qsize) (code : Byte) {i : Nat} (hi : i ≤ queueCount s) :
    unreadAt { s with buf := Memory.write s.buf s.head code, head := (s.head + 1) % s.cfg.qsize } i = if i = queueCount s then some code else unreadAt s i := by
  simp only [unreadAt, Memory.read_write]
  by_cases h : i = queueCount s
  · subst h; simp [tail_add_queueCount hh ht]
  · have := unread_index_ne_head hh ht (show i < queueCount s by omega); simp [h, this]


/-- Moving `tail` past one unread code makes the count one smaller. -/
theorem queueCount_pop {s : State} (hh : s.head < s.cfg.qsize) (ht : s.tail < s.cfg.qsize) (hne : s.head ≠ s.tail) :
    queueCount { s with tail := (s.tail + 1) % s.cfg.qsize } + 1 = queueCount s := by
  have hq : (s.tail + 1) % s.cfg.qsize < s.cfg.qsize := Nat.mod_lt _ (by omega)
  simp only [queueCount]; rw [ring_count hh hq, ring_count hh ht, ring_succ ht]
  split <;> split <;> split <;> omega

/-- With `tail` moved on, each unread code is one place nearer. -/
theorem unreadAt_pop (s : State) (i : Nat) :
    unreadAt { s with tail := (s.tail + 1) % s.cfg.qsize } i = unreadAt s (i + 1) := by
  simp only [unreadAt]; congr 1; rw [Nat.mod_add_mod]; congr 1; omega

/-- All a pop leaves in a state that meets the invariants: it meets them too. -/
theorem inv_of_pop {s t : State} {r : Option Byte} (hI : Invariants s) (h : pop s = .next (r, t)) : Invariants t := by
  obtain ⟨-, -, rfl⟩ | ⟨code, hne, ht, -, -, rfl⟩ := pop_eq_next.1 h
  · exact hI
  · have hcount := queueCount_pop hI.headInRange ht hne
    exact { hI with
      tailInRange := Nat.mod_lt _ (by show 0 < s.cfg.qsize; omega)
      unreadWritten := fun i hi => by rw [unreadAt_pop]; exact hI.unreadWritten _ (by omega) }

/-- All a push leaves in a state that meets the invariants: it meets them too. -/
theorem inv_of_push {code : Byte} {s t : State} {ok : Bool} (hI : Invariants s) (h : push code s = .next (ok, t)) : Invariants t := by
  obtain ⟨-, -, rfl⟩ | ⟨-, hr, hh, rfl⟩ := push_eq_next.1 h
  · exact hI
  · have ht := hI.tailInRange
    exact { hI with
      headInRange := Nat.mod_lt _ (by show 0 < s.cfg.qsize; omega)
      unreadWritten := fun i hi => by
        rw [queueCount_push hh ht hr] at hi
        rw [unreadAt_push hh ht _ (by omega)]; split
        · rfl
        · exact hI.unreadWritten i (by omega)
      bufCanonical := Memory.write_wf _ _ _ hI.bufCanonical
      bufInRange := Memory.write_below _ _ _ _ hh hI.bufInRange }

end Sys2Proof.Machine
end

