-- ==== Sys2Proof/Laws/Frame.lean ====
section
/-! SUPPORT. What a mode event, a decode row, a POLL and an edge can change, each said once. -/

namespace Sys2Proof.Machine

/-- What a mode event can change: the contexts, the random source, and what has gone to the sink (R27, R29, R32). -/
def ModeFrame (s t : State) : Prop :=
  t.draws <:+ s.draws ∧
  t = { s with dgPrevKey := t.dgPrevKey, dgPrevMods := t.dgPrevMods, wsCount := t.wsCount, wrCount := t.wrCount,
               wrBuf := t.wrBuf, draws := t.draws, drawCount := t.drawCount, out := t.out, sink := t.sink }

theorem wordSubstitute_frame {k : Keycode} {m : Mods} {s t : State} (h : wordSubstitute k m s = .next t) :
    ModeFrame s t := by
  simp only [wordSubstitute] at h
  split at h
  · cases h; exact ⟨List.suffix_rfl, rfl⟩
  · split at h
    · split at h <;> cases h <;> exact ⟨List.suffix_rfl, rfl⟩
    · cases h; exact ⟨List.suffix_rfl, rfl⟩

theorem wordReverse_frame {k : Keycode} {m : Mods} {s t : State} (h : wordReverse k m s = .next t) :
    ModeFrame s t := by
  simp only [wordReverse] at h
  split at h
  · cases h; exact ⟨List.suffix_rfl, rfl⟩
  · split at h
    · split at h
      · obtain ⟨s1, h1, h⟩ := andThen_eq_next.1 h
        obtain ⟨-, rfl⟩ := bufWrite_eq_next.1 h1
        cases h; exact ⟨List.suffix_rfl, rfl⟩
      · cases h; exact ⟨List.suffix_rfl, rfl⟩
    · obtain ⟨xs, -, h⟩ := andThen_eq_next.1 h
      cases h; exact ⟨List.suffix_rfl, rfl⟩

theorem randomInterject_frame {k : Keycode} {m : Mods} {s t : State} (h : randomInterject k m s = .next t) :
    ModeFrame s t := by
  simp only [randomInterject] at h
  split at h
  · obtain ⟨⟨r, s1⟩, h1, h⟩ := andThen_eq_next.1 h
    obtain ⟨-, ⟨hd, h1⟩ | ⟨hd, h1⟩⟩ := draw_eq_next h1 <;> dsimp only at h1 h <;> rw [h1] at h <;> cases h
    · exact ⟨⟨[r], hd.symm⟩, rfl⟩
    · exact ⟨List.suffix_rfl, rfl⟩
  · cases h; exact ⟨List.suffix_rfl, rfl⟩

/-- An event in a given mode has that mode's frame (R106, R107). -/
theorem modeEvent_frame {mode : Keycode → Mods → State → Answer State} {k : Keycode} {m : Mods} {s t : State}
    (hm : ∀ t, mode k m s = .next t → ModeFrame s t) (h : modeEvent mode k m s = .next t) : ModeFrame s t := by
  unfold modeEvent at h
  split at h
  · cases h; exact ⟨List.suffix_rfl, rfl⟩
  · exact hm t h

/-- The event given to the active mode has that frame. -/
theorem modeApply_frame {k : Keycode} {m : Mods} {s t : State} (h : modeApply k m s = .next t) : ModeFrame s t := by
  rcases modeApply_cases k m s with ⟨-, e⟩ | ⟨-, -, e⟩ | ⟨-, -, e⟩ | ⟨-, -, e⟩ | ⟨-, -, e⟩ | ⟨-, -, e⟩ | ⟨-, -, e⟩ <;>
    rw [e] at h
  · cases h; exact ⟨List.suffix_rfl, rfl⟩
  · cases h; exact ⟨List.suffix_rfl, rfl⟩
  · cases h; exact ⟨List.suffix_rfl, rfl⟩
  · exact wordSubstitute_frame h
  · exact wordReverse_frame h
  · exact randomInterject_frame h
  · cases h

/-- A mode event reads and writes the context of the active mode only (R29). -/
theorem modeApply_contexts {k : Keycode} {m : Mods} {s t : State} (h : modeApply k m s = .next t) :
    (s.modeIndex ≠ 1 → t.dgPrevKey = s.dgPrevKey ∧ t.dgPrevMods = s.dgPrevMods) ∧
    (s.modeIndex ≠ 2 → t.wsCount = s.wsCount) ∧
    (s.modeIndex ≠ 3 → t.wrCount = s.wrCount ∧ t.wrBuf = s.wrBuf) := by
  rcases modeApply_cases k m s with ⟨-, e⟩ | ⟨-, -, e⟩ | ⟨-, i, e⟩ | ⟨-, i, e⟩ | ⟨-, i, e⟩ | ⟨-, -, e⟩ | ⟨-, -, e⟩ <;>
    rw [e] at h
  · cases h; exact ⟨fun _ => ⟨rfl, rfl⟩, fun _ => rfl, fun _ => ⟨rfl, rfl⟩⟩
  · cases h; exact ⟨fun _ => ⟨rfl, rfl⟩, fun _ => rfl, fun _ => ⟨rfl, rfl⟩⟩
  · cases h; exact ⟨fun x => absurd i x, fun _ => rfl, fun _ => ⟨rfl, rfl⟩⟩
  · refine ⟨fun _ => ?_, fun x => absurd i x, fun _ => ?_⟩ <;>
      (simp only [wordSubstitute] at h; split at h
       · cases h; exact ⟨rfl, rfl⟩
       · split at h
         · split at h <;> (cases h; exact ⟨rfl, rfl⟩)
         · cases h; exact ⟨rfl, rfl⟩)
  · refine ⟨fun _ => ?_, fun _ => ?_, fun x => absurd i x⟩ <;>
      (simp only [wordReverse] at h; split at h
       · cases h; first | rfl | exact ⟨rfl, rfl⟩
       · split at h
         · split at h
           · obtain ⟨s1, h1, h⟩ := andThen_eq_next.1 h
             obtain ⟨-, rfl⟩ := bufWrite_eq_next.1 h1
             cases h; first | rfl | exact ⟨rfl, rfl⟩
           · cases h; first | rfl | exact ⟨rfl, rfl⟩
         · obtain ⟨xs, -, h⟩ := andThen_eq_next.1 h
           cases h; first | rfl | exact ⟨rfl, rfl⟩)
  · simp only [randomInterject] at h
    split at h
    · obtain ⟨⟨r, s1⟩, h1, h⟩ := andThen_eq_next.1 h
      obtain ⟨-, ⟨-, h1⟩ | ⟨-, h1⟩⟩ := draw_eq_next h1 <;> dsimp only at h1 h <;> rw [h1] at h <;> cases h <;>
        exact ⟨fun _ => ⟨rfl, rfl⟩, fun _ => rfl, fun _ => ⟨rfl, rfl⟩⟩
    · cases h; exact ⟨fun _ => ⟨rfl, rfl⟩, fun _ => rfl, fun _ => ⟨rfl, rfl⟩⟩
  · cases h

/-- A mode event completes in a mode of R23, with the buffered letters written and the draws in range. -/
theorem modeApply_completes {k : Keycode} {m : Mods} {s : State} (hi : s.modeIndex.toNat ≤ 4) (hc : s.wrCount ≤ s.cfg.wrCap)
    (hw : ∀ i, i < s.wrCount → (Memory.read s.wrBuf i).isSome = true)
    (hd : ∀ r ∈ s.draws, r < s.cfg.dictSize) (hs : 0 < s.cfg.dictSize) : ∃ t, modeApply k m s = .next t := by
  rcases modeApply_cases k m s with ⟨-, e⟩ | ⟨-, -, e⟩ | ⟨-, -, e⟩ | ⟨-, -, e⟩ | ⟨-, -, e⟩ | ⟨-, -, e⟩ | ⟨-, i, -⟩
  · exact ⟨_, e⟩
  · exact ⟨_, e⟩
  · exact ⟨_, e⟩
  · rw [e]; simp only [wordSubstitute]
    split
    · exact ⟨_, rfl⟩
    · split
      · split <;> exact ⟨_, rfl⟩
      · exact ⟨_, rfl⟩
  · rw [e]; simp only [wordReverse]
    split
    · exact ⟨_, rfl⟩
    · split
      · split
        · rw [bufWrite_eq_next.2 ⟨‹_›, rfl⟩]; exact ⟨_, rfl⟩
        · exact ⟨_, rfl⟩
      · obtain ⟨xs, hx⟩ := bufReadFrom_completes hc hw
        rw [hx]; exact ⟨_, rfl⟩
  · rw [e]; simp only [randomInterject]
    split
    · obtain ⟨r, t, h⟩ := draw_completes hd hs
      rw [h]; exact ⟨_, rfl⟩
    · exact ⟨_, rfl⟩
  · omega

/-- A decode row changes at most the flags, the mask, the mode, the contexts, the random source, and what has gone to
the sink (R32). -/
theorem runRow_frame {i : Instr} {s t : State} (h : runRow i s = .next t) :
    t.draws <:+ s.draws ∧
    t = { s with breakPending := t.breakPending, extendedPending := t.extendedPending, modifierMask := t.modifierMask,
                 modeIndex := t.modeIndex, dgPrevKey := t.dgPrevKey, dgPrevMods := t.dgPrevMods, wsCount := t.wsCount,
                 wrCount := t.wrCount, wrBuf := t.wrBuf, draws := t.draws, drawCount := t.drawCount, out := t.out,
                 sink := t.sink } := by
  cases i <;> simp only [runRow] at h
  case makeKey e code =>
    obtain ⟨u, h1, h⟩ := andThen_eq_next.1 h
    obtain ⟨h2, h3⟩ := modeApply_frame h1
    cases h
    refine ⟨h2, ?_⟩
    rw [h3]; rfl
  case modeNext =>
    cases h; simp only [switchMode]; split <;> exact ⟨List.suffix_rfl, rfl⟩
  case modePrev =>
    cases h; simp only [switchMode]; split <;> exact ⟨List.suffix_rfl, rfl⟩
  all_goals (cases h; try exact ⟨List.suffix_rfl, rfl⟩)

/-- The decoder step has the frame of its row. -/
theorem decodeStep_frame {code : Byte} {s t : State} (h : decodeStep code s = .next t) :
    t.draws <:+ s.draws ∧
    t = { s with breakPending := t.breakPending, extendedPending := t.extendedPending, modifierMask := t.modifierMask,
                 modeIndex := t.modeIndex, dgPrevKey := t.dgPrevKey, dgPrevMods := t.dgPrevMods, wsCount := t.wsCount,
                 wrCount := t.wrCount, wrBuf := t.wrBuf, draws := t.draws, drawCount := t.drawCount, out := t.out,
                 sink := t.sink } := runRow_frame h

/-- All a POLL can do: report an empty queue, or take the oldest code and run its row. -/
theorem execPoll_eq_next {s t : State} :
    execPoll s = .next t ↔
      (s.head = s.tail ∧ t = returnConsumed false s) ∨
      (∃ code u, s.head ≠ s.tail ∧ s.tail < s.cfg.qsize ∧ Memory.read s.buf s.tail = some code ∧
        decodeStep code { s with tail := (s.tail + 1) % s.cfg.qsize } = .next u ∧ t = returnConsumed true u) := by
  unfold execPoll
  simp only [andThen_eq_next]
  constructor
  · rintro ⟨⟨r, v⟩, h1, h2⟩
    obtain ⟨he, rfl, rfl⟩ | ⟨code, hne, ht, hr, rfl, rfl⟩ := pop_eq_next.1 h1
    · cases h2; exact .inl ⟨he, rfl⟩
    · obtain ⟨u, h3, h4⟩ := andThen_eq_next.1 h2
      cases h4; exact .inr ⟨code, u, hne, ht, hr, h3, rfl⟩
  · rintro (⟨he, rfl⟩ | ⟨code, u, hne, ht, hr, h3, rfl⟩)
    · exact ⟨_, pop_of_empty he, rfl⟩
    · exact ⟨_, pop_of_code hne ht hr, andThen_eq_next.2 ⟨u, h3, rfl⟩⟩

/-- Edges in a row change nothing but what one edge changes. -/
theorem edges_frame {ds : List Bool} {t : Nat} {s u : State} (h : edges ds t s = .next u) :
    u = { s with bitCount := u.bitCount, shiftRegister := u.shiftRegister, lastEdgeTime := u.lastEdgeTime,
                 buf := u.buf, head := u.head } := by
  induction ds generalizing s with
  | nil => cases h; rfl
  | cons d ds ih =>
    obtain ⟨v, h1, h2⟩ := andThen_eq_next.1 h
    have hv : v = { s with bitCount := v.bitCount, shiftRegister := v.shiftRegister, lastEdgeTime := v.lastEdgeTime,
                           buf := v.buf, head := v.head } := by
      obtain ⟨bc, sr, -, ⟨-, rfl⟩ | ⟨-, ok, w, h3, rfl⟩⟩ := edge_eq_next h1
      · rfl
      · obtain ⟨-, -, rfl⟩ | ⟨-, -, -, rfl⟩ := push_eq_next.1 h3 <;> rfl
    rw [ih h2, hv]

end Sys2Proof.Machine
end

