-- ==== Sys2Proof/Laws/PerInstr.lean ====
section
/-! SUPPORT. Facts about every instruction as syntax, one lemma per constructor of `Instr`. -/

namespace Sys2Proof.Laws.EncodedWord

/-- The word of an instruction fits its format (spec/30_encoding.md R59, R63, R64, R65): a decode word has 10 bits, a
sink word is `00` to `10` in its op field, a mode word has an index below 5, a transaction has a tag below 3. -/
def Statement (i : Instr) : Prop :=
  match encode i with
  | ⟨.decodeWord, v⟩ => v < 2 ^ 10
  | ⟨.sinkOp, v⟩ => v / 2 ^ 16 < 3
  | ⟨.modeIndex, v⟩ => v % 8 < 5 ∧ v < 2 ^ 35
  | ⟨.transaction, v⟩ => v % 4 < 3
  | ⟨.frame, _⟩ => True

theorem decodeWord_fits (b e : Bool) (s : Byte) : (decodeWordOf b e s).toNat < 2 ^ 10 := (decodeWordOf b e s).isLt

theorem modeWord_fits (idx : Nat) (k : Keycode) (m : Mods) (h : idx < 5) :
    (idx + k.toNat * 2 ^ 3 + m.toNat * 2 ^ 19) % 8 < 5 ∧ idx + k.toNat * 2 ^ 3 + m.toNat * 2 ^ 19 < 2 ^ 35 := by
  have := k.isLt; have := m.isLt; omega

theorem pfxBreak (b e : Bool) : Statement (.pfxBreak b e) := decodeWord_fits _ _ _
theorem pfxExt (b e : Bool) : Statement (.pfxExt b e) := decodeWord_fits _ _ _
theorem makeLShift (e : Bool) : Statement (.makeLShift e) := decodeWord_fits _ _ _
theorem makeRShift (e : Bool) : Statement (.makeRShift e) := decodeWord_fits _ _ _
theorem makeLAlt : Statement .makeLAlt := decodeWord_fits _ _ _
theorem makeRAlt : Statement .makeRAlt := decodeWord_fits _ _ _
theorem makeLCtrl : Statement .makeLCtrl := decodeWord_fits _ _ _
theorem makeRCtrl : Statement .makeRCtrl := decodeWord_fits _ _ _
theorem makeLGui : Statement .makeLGui := decodeWord_fits _ _ _
theorem makeRGui : Statement .makeRGui := decodeWord_fits _ _ _
theorem breakLShift (e : Bool) : Statement (.breakLShift e) := decodeWord_fits _ _ _
theorem breakRShift (e : Bool) : Statement (.breakRShift e) := decodeWord_fits _ _ _
theorem breakLAlt : Statement .breakLAlt := decodeWord_fits _ _ _
theorem breakRAlt : Statement .breakRAlt := decodeWord_fits _ _ _
theorem breakLCtrl : Statement .breakLCtrl := decodeWord_fits _ _ _
theorem breakRCtrl : Statement .breakRCtrl := decodeWord_fits _ _ _
theorem breakLGui : Statement .breakLGui := decodeWord_fits _ _ _
theorem breakRGui : Statement .breakRGui := decodeWord_fits _ _ _
theorem makeNavHome : Statement .makeNavHome := decodeWord_fits _ _ _
theorem makeNavEnd : Statement .makeNavEnd := decodeWord_fits _ _ _
theorem makeNavPgUp : Statement .makeNavPgUp := decodeWord_fits _ _ _
theorem makeNavPgDn : Statement .makeNavPgDn := decodeWord_fits _ _ _
theorem makeNavUp : Statement .makeNavUp := decodeWord_fits _ _ _
theorem makeNavLeft : Statement .makeNavLeft := decodeWord_fits _ _ _
theorem makeNavDown : Statement .makeNavDown := decodeWord_fits _ _ _
theorem makeNavRight : Statement .makeNavRight := decodeWord_fits _ _ _
theorem makeNavDel : Statement .makeNavDel := decodeWord_fits _ _ _
theorem breakNavHome : Statement .breakNavHome := decodeWord_fits _ _ _
theorem breakNavEnd : Statement .breakNavEnd := decodeWord_fits _ _ _
theorem breakNavPgUp : Statement .breakNavPgUp := decodeWord_fits _ _ _
theorem breakNavPgDn : Statement .breakNavPgDn := decodeWord_fits _ _ _
theorem breakNavUp : Statement .breakNavUp := decodeWord_fits _ _ _
theorem breakNavLeft : Statement .breakNavLeft := decodeWord_fits _ _ _
theorem breakNavDown : Statement .breakNavDown := decodeWord_fits _ _ _
theorem breakNavRight : Statement .breakNavRight := decodeWord_fits _ _ _
theorem breakNavDel : Statement .breakNavDel := decodeWord_fits _ _ _
theorem modeNext : Statement .modeNext := decodeWord_fits _ _ _
theorem modePrev : Statement .modePrev := decodeWord_fits _ _ _
theorem makeModeNextIgnored : Statement .makeModeNextIgnored := decodeWord_fits _ _ _
theorem makeModePrevIgnored : Statement .makeModePrevIgnored := decodeWord_fits _ _ _
theorem breakKey (e : Bool) (s : Byte) : Statement (.breakKey e s) := decodeWord_fits _ _ _
theorem makeKey (e : Bool) (s : Byte) : Statement (.makeKey e s) := decodeWord_fits _ _ _
theorem frame (levels : BitVec 11) (t : Nat) : Statement (.frame levels t) := trivial
theorem edge (d : Bool) (t : Nat) : Statement (.edge d t) := by
  cases d <;> simp only [Statement, encode, Bool.toNat_true, Bool.toNat_false] <;> omega
theorem poll : Statement .poll := by simp [Statement, encode]
theorem reset : Statement .reset := by simp [Statement, encode]
theorem setMods (m : Mods) : Statement (.setMods m) := by
  have := m.isLt; simp only [Statement, encode]; omega
theorem setKey (k : Keycode) : Statement (.setKey k) := by
  have := k.isLt; simp only [Statement, encode]; omega
theorem send : Statement .send := by simp [Statement, encode]
theorem modeIdentity (k : Keycode) (m : Mods) : Statement (.modeIdentity k m) := modeWord_fits _ k m (by decide)
theorem modeDigraph (k : Keycode) (m : Mods) : Statement (.modeDigraph k m) := modeWord_fits _ k m (by decide)
theorem modeWordSubstitute (k : Keycode) (m : Mods) : Statement (.modeWordSubstitute k m) := modeWord_fits _ k m (by decide)
theorem modeWordReverse (k : Keycode) (m : Mods) : Statement (.modeWordReverse k m) := modeWord_fits _ k m (by decide)
theorem modeRandomInterject (k : Keycode) (m : Mods) : Statement (.modeRandomInterject k m) := modeWord_fits _ k m (by decide)

end Sys2Proof.Laws.EncodedWord
end

