-- ==== Sys2Proof/Laws/Reference.lean ====
section
/-! SUPPORT. The reference configuration meets the constraints on the parameters (spec/00_scope.md R7). -/

namespace Sys2Proof.Machine

/-- R7 of the reference configuration, whatever the OPEN dictionary values are (log 9). -/
theorem referenceConfig_wf : referenceConfig.wf = true := by
  have hl : referenceKeymap.length = 132 := rfl
  have h0 : referenceKeymap.getD 0 0 = 0 := rfl
  have hd : referenceDict.take 8 = List.replicate 8 [] := rfl
  have hdl : referenceDict.length = 16 := rfl
  simp only [Config.wf, referenceConfig, hl, h0, hd, hdl]
  simp

theorem referenceConfig_wfModel : referenceConfig.wfModel = true := by
  have hdl : referenceDict.length = 16 := rfl
  simp only [Config.wfModel, referenceConfig, hdl]
  decide

end Sys2Proof.Machine
end

