-- ==== Sys2Proof/Tests/Slice0.lean ====
section
/-! SUPPORT. The model's own tests: the well-formedness smoke, words written out from the spec's encodings, vectors of spec/95_test_vectors.md (named in each docstring), and a witness for the hypotheses of every statement. -/

namespace Sys2Proof.Tests

open Sys2Proof Sys2Proof.Machine Sys2Proof.Claims

/-! ### Small states -/

/-- The test dictionary of spec/95_test_vectors.md: `DICT[8] = 0B 0C 00` (M33), `DICT[15] = 0B 12 07 12` (M34). -/
def testConfig : Config :=
  { referenceConfig with
    dict := List.replicate 8 [] ++ [[0x0B, 0x0C, 0x00, 0x00]] ++ List.replicate 6 [] ++ [[0x0B, 0x12, 0x07, 0x12]]
    dictWordLen := 4 }

def s0 : State := State.resetWith testConfig

/-- `s0` in a given mode. -/
def inMode (idx : BitVec 3) : State := { s0 with modeIndex := idx }

/-- `s0` with one code in the queue and given flags. -/
def queued (b e : Bool) (code : Byte) : State :=
  { s0 with buf := [(0, code)], head := 1, breakPending := b, extendedPending := e }

/-- `[k/m]` of spec/95_test_vectors.md, as the five operations of R105. -/
def key (k : Keycode) (m : Mods) : List SinkOp := [.setMods m, .setKey k, .send, .setKey 0, .send]

/-- The answer is a next state of which `p` holds. -/
def gives (x : Answer State) (p : State → Bool) : Bool :=
  match x with
  | .next t => p t
  | _ => false

/-- The answer is the refusal `r`. -/
def refuses (x : Answer State) (r : Refusal) : Bool :=
  match x with
  | .refused q => q == r
  | _ => false

/-- One step of POLL on a decode word placed in the queue. -/
def polled (w : Nat) (s : State) (p : State → Bool) : Bool := gives (step (s.withFetchWord 10 w)) p

/-! ### Well-formedness -/

/-- A catch-all row holds no code of an earlier row (R60). -/
theorem test_wf_refuses : ([
    .makeKey false 0xF0, .makeKey true 0xE0, .makeKey false 0x12, .makeKey true 0x59, .makeKey false 0x11,
    .makeKey true 0x14, .makeKey true 0x1F, .makeKey true 0x27, .makeKey true 0x75, .makeKey true 0x32,
    .breakKey false 0xE0, .breakKey true 0xF0, .breakKey false 0x14, .breakKey true 0x71, .breakKey true 0x21] :
    List Instr).all (fun i => !i.wellFormed) = true := by decide

theorem test_wf_accepts : ([
    .makeKey false 0x1C, .makeKey false 0x75, .makeKey true 0x4A, .makeKey false 0x1F, .makeKey false 0x00,
    .breakKey false 0x32, .breakKey true 0x5A, .breakKey true 0xFF, .pfxExt true true] :
    List Instr).all Instr.wellFormed = true := by decide

/-! ### Words -/

/-- `B`, `E` and `s` written out from R60 rows 1, 2. -/
theorem test_decode_prefixes : ([
    (0b0_0_11110000, .pfxBreak false false),
    (0b0_1_11110000, .pfxBreak false true),
    (0b1_0_11110000, .pfxBreak true false),
    (0b1_1_11110000, .pfxBreak true true),
    (0b0_0_11100000, .pfxExt false false),
    (0b0_1_11100000, .pfxExt false true),
    (0b1_0_11100000, .pfxExt true false),
    (0b1_1_11100000, .pfxExt true true)] : List (Nat × Instr)).all
    (fun p => decodeTableWord 10 p.1 == some p.2 && decodeTableWord 16 p.1 == some p.2) = true := by decide

/-- `B`, `E` and `s` written out from R60 rows 3 to 10. -/
theorem test_decode_modifier_presses : ([
    (0b0_0_00010010, .makeLShift false),
    (0b0_1_00010010, .makeLShift true),
    (0b0_0_01011001, .makeRShift false),
    (0b0_1_01011001, .makeRShift true),
    (0b0_0_00010001, .makeLAlt),
    (0b0_1_00010001, .makeRAlt),
    (0b0_0_00010100, .makeLCtrl),
    (0b0_1_00010100, .makeRCtrl),
    (0b0_1_00011111, .makeLGui),
    (0b0_1_00100111, .makeRGui)] : List (Nat × Instr)).all
    (fun p => decodeTableWord 10 p.1 == some p.2 && decodeTableWord 16 p.1 == some p.2) = true := by decide

/-- `B`, `E` and `s` written out from R60 rows 11 to 18. -/
theorem test_decode_modifier_releases : ([
    (0b1_0_00010010, .breakLShift false),
    (0b1_1_00010010, .breakLShift true),
    (0b1_0_01011001, .breakRShift false),
    (0b1_1_01011001, .breakRShift true),
    (0b1_0_00010001, .breakLAlt),
    (0b1_1_00010001, .breakRAlt),
    (0b1_0_00010100, .breakLCtrl),
    (0b1_1_00010100, .breakRCtrl),
    (0b1_1_00011111, .breakLGui),
    (0b1_1_00100111, .breakRGui)] : List (Nat × Instr)).all
    (fun p => decodeTableWord 10 p.1 == some p.2 && decodeTableWord 16 p.1 == some p.2) = true := by decide

/-- `B`, `E` and `s` written out from R60 rows 19 to 27, R92. -/
theorem test_decode_navigation_presses : ([
    (0b0_1_01101100, .makeNavHome),
    (0b0_1_01101001, .makeNavEnd),
    (0b0_1_01111101, .makeNavPgUp),
    (0b0_1_01111010, .makeNavPgDn),
    (0b0_1_01110101, .makeNavUp),
    (0b0_1_01101011, .makeNavLeft),
    (0b0_1_01110010, .makeNavDown),
    (0b0_1_01110100, .makeNavRight),
    (0b0_1_01110001, .makeNavDel)] : List (Nat × Instr)).all
    (fun p => decodeTableWord 10 p.1 == some p.2 && decodeTableWord 16 p.1 == some p.2) = true := by decide

/-- `B`, `E` and `s` written out from R60 rows 28 to 36, R92. -/
theorem test_decode_navigation_releases : ([
    (0b1_1_01101100, .breakNavHome),
    (0b1_1_01101001, .breakNavEnd),
    (0b1_1_01111101, .breakNavPgUp),
    (0b1_1_01111010, .breakNavPgDn),
    (0b1_1_01110101, .breakNavUp),
    (0b1_1_01101011, .breakNavLeft),
    (0b1_1_01110010, .breakNavDown),
    (0b1_1_01110100, .breakNavRight),
    (0b1_1_01110001, .breakNavDel)] : List (Nat × Instr)).all
    (fun p => decodeTableWord 10 p.1 == some p.2 && decodeTableWord 16 p.1 == some p.2) = true := by decide

/-- `B`, `E` and `s` written out from R60 rows 37 to 40. -/
theorem test_decode_mode_switches : ([
    (0b1_1_00110010, .modeNext),
    (0b1_1_00100001, .modePrev),
    (0b0_1_00110010, .makeModeNextIgnored),
    (0b0_1_00100001, .makeModePrevIgnored)] : List (Nat × Instr)).all
    (fun p => decodeTableWord 10 p.1 == some p.2 && decodeTableWord 16 p.1 == some p.2) = true := by decide

/-- `B`, `E` and `s` written out from R60 rows 41, 42. -/
theorem test_decode_ordinary_keys : ([
    (0b1_0_00011100, .breakKey false 0x1C),
    (0b1_1_01011010, .breakKey true 0x5A),
    (0b1_0_00011111, .breakKey false 0x1F),
    (0b0_0_00011100, .makeKey false 0x1C),
    (0b0_1_01001010, .makeKey true 0x4A),
    (0b0_0_01110101, .makeKey false 0x75),
    (0b0_0_00110010, .makeKey false 0x32)] : List (Nat × Instr)).all
    (fun p => decodeTableWord 10 p.1 == some p.2 && decodeTableWord 16 p.1 == some p.2) = true := by decide

/-- The 11 levels of the frame of `1C` (L1-1, R56), start first. -/
theorem test_decode_frame : decodeTableWord 11 0b0_00111000_0_1 = some (.frame 0b00011100001 0) := by decide

/-- The tags of R65; EDGE's operands at the places of log 15: `d` in bit 2, `t` above. -/
theorem test_decode_transactions :
    decodeTableWord 2 0b00 = some (.edge false 0) ∧ decodeTableWord 2 0b01 = some .poll ∧
    decodeTableWord 2 0b10 = some .reset ∧ decodeTableWord 2 0b11 = none ∧
    decodeTableWord 40 0b101_1_00 = some (.edge true 5) := by decide

/-- The sink words of R64. -/
theorem test_decode_sink_ops :
    decodeTableWord 18 0b00_0000000001000010 = some (.setMods 0x0042) ∧
    decodeTableWord 18 0b01_0000000001001010 = some (.setKey 0x004A) ∧
    decodeTableWord 18 0b10_0000000000000000 = some .send ∧
    decodeTableWord 18 0b11_0000000000000000 = none := by decide

/-- The mode indices of R63, the event above them (log 15). -/
theorem test_decode_modes :
    decodeTableWord 3 0b000 = some (.modeIdentity 0 0) ∧ decodeTableWord 3 0b001 = some (.modeDigraph 0 0) ∧
    decodeTableWord 3 0b010 = some (.modeWordSubstitute 0 0) ∧ decodeTableWord 3 0b011 = some (.modeWordReverse 0 0) ∧
    decodeTableWord 3 0b100 = some (.modeRandomInterject 0 0) ∧ decodeTableWord 3 0b101 = none ∧
    decodeTableWord 3 0b111 = none ∧
    decode ⟨.modeIndex, 0b0000000000000010_0000000000000100_001⟩ = .ok (.modeDigraph 0x04 0x02) := by decide

/-! ### The framer and the queue -/

/-- F2: `d = 1` at an elapsed time of exactly 250 gives no timeout. -/
theorem test_edge_at_the_limit :
    gives (exec (.edge true 254) { s0 with bitCount := 5, shiftRegister := 0x0C, lastEdgeTime := 4 })
      (fun t => t.bitCount == 6 && t.shiftRegister == 0x1C && t.lastEdgeTime == 254) = true := by decide

/-- F6: the time wraps, 267 is beyond the limit, the edge is taken as a start bit. -/
theorem test_edge_timeout_wraps :
    gives (exec (.edge true 0xFB) { s0 with bitCount := 3, shiftRegister := 0x03, lastEdgeTime := 0xFFFFFFF0 })
      (fun t => t.bitCount == 1 && t.shiftRegister == 0 && t.lastEdgeTime == 0xFB) = true := by decide

/-- F7: the frame of `1C` with the parity bit inverted is pushed all the same. -/
theorem test_frame_bad_parity :
    gives (exec (.frame 0b0_00111000_1_1 0) s0) (fun t => t.buf == [(0, 0x1C)] && t.head == 1 && t.bitCount == 0) = true := by
  decide

/-- F9: one noise edge before the frame of `1C` pushes `38` and leaves one edge of a new frame. -/
theorem test_frame_misaligned :
    gives (exec (.frame 0b0_00111000_0_1 0) { s0 with bitCount := 1 })
      (fun t => t.buf == [(0, 0x38)] && t.bitCount == 1) = true := by decide

/-- Q1 and F15: the write index wraps; a full queue drops the code and the framer starts anew. -/
theorem test_push_wraps_or_drops :
    gives (exec (.edge true 0) { s0 with bitCount := 10, shiftRegister := 0x1C, head := 44, tail := 5 })
      (fun t => t.buf == [(44, 0x1C)] && t.head == 0) = true ∧
    gives (exec (.edge true 0) { s0 with bitCount := 10, shiftRegister := 0x32, head := 4, tail := 5 })
      (fun t => t.buf == [] && t.head == 4 && t.bitCount == 0) = true := by decide

/-- Q4 and Q5: the read index wraps and the code is a prefix; an empty queue returns false with the flags as they were. -/
theorem test_poll_wraps_or_is_empty :
    gives (exec .poll { s0 with buf := [(44, 0xF0)], head := 0, tail := 44 })
      (fun t => t.tail == 0 && t.breakPending && t.polls == [true]) = true ∧
    gives (exec .poll { s0 with head := 9, tail := 9, extendedPending := true })
      (fun t => t.tail == 9 && t.extendedPending && t.polls == [false] && t.out == []) = true := by decide

/-! ### The decoder (D1 to D32) -/

/-- D23, D25: a prefix sets its own flag and keeps the other. -/
theorem test_prefixes :
    polled 0x1F0 s0 (fun t => t.breakPending && t.extendedPending && t.out == []) = true ∧
    polled 0x2E0 s0 (fun t => t.breakPending && t.extendedPending && t.out == []) = true := by decide

/-- D1 to D10: the press of each modifier, from mask 0. -/
theorem test_modifier_presses : ([
    (0x012, 0x0002), (0x059, 0x0020), (0x011, 0x0004), (0x111, 0x0040), (0x014, 0x0001), (0x114, 0x0010),
    (0x11F, 0x0008), (0x127, 0x0080), (0x112, 0x0002), (0x159, 0x0020)] : List (Nat × Mods)).all
    (fun p => polled p.1 s0 fun t => t.modifierMask == p.2 && t.out == [.setMods p.2, .send] &&
      !t.breakPending && !t.extendedPending) = true := by decide

/-- D14 and its like: the release of each modifier, from the mask of all eight. -/
theorem test_modifier_releases : ([
    (0x212, 0x00FD), (0x259, 0x00DF), (0x211, 0x00FB), (0x311, 0x00BF), (0x214, 0x00FE), (0x314, 0x00EF),
    (0x31F, 0x00F7), (0x327, 0x007F)] : List (Nat × Mods)).all
    (fun p => polled p.1 { s0 with modifierMask := 0x00FF } fun t => t.modifierMask == p.2 &&
      t.out == [.setMods p.2, .send] && !t.breakPending && !t.extendedPending) = true := by decide

/-- D16, D17: each navigation press sends the live mask and holds the key (the keycodes are R92's). -/
theorem test_navigation_presses : ([
    (0x16C, 0x4A), (0x169, 0x4D), (0x17D, 0x4B), (0x17A, 0x4E), (0x175, 0x52), (0x16B, 0x50), (0x172, 0x51),
    (0x174, 0x4F), (0x171, 0x4C)] : List (Nat × Keycode)).all
    (fun p => polled p.1 { s0 with modifierMask := 0x0002 } fun t =>
      t.out == [.setMods 0x0002, .setKey p.2, .send] && t.sink.key == p.2) = true := by decide

/-- D16: each navigation release clears the slot. -/
theorem test_navigation_releases : ([0x36C, 0x369, 0x37D, 0x37A, 0x375, 0x36B, 0x372, 0x374, 0x371] : List Nat).all
    (fun w => polled w s0 fun t => t.out == [.setKey 0, .send]) = true := by decide

/-- D19, D20, L1-5: one up, one down, clamped at both ends. -/
theorem test_mode_switches :
    polled 0x332 (inMode 0) (fun t => t.modeIndex == 1 && t.out == []) = true ∧
    polled 0x332 (inMode 4) (fun t => t.modeIndex == 4) = true ∧
    polled 0x321 (inMode 1) (fun t => t.modeIndex == 0 && t.out == []) = true ∧
    polled 0x321 (inMode 0) (fun t => t.modeIndex == 0) = true := by decide

/-- R108, S4: the contexts are cleared when the index changes and the policy says so, and not when it stays. -/
theorem test_context_policy :
    polled 0x332 { inMode 2 with wsCount := 3, cfg := { testConfig with clearContextOnSwitch := true } }
      (fun t => t.wsCount == 0) = true ∧
    polled 0x332 { inMode 2 with wsCount := 3 } (fun t => t.wsCount == 3) = true ∧
    polled 0x321 { inMode 0 with wsCount := 3, cfg := { testConfig with clearContextOnSwitch := true } }
      (fun t => t.wsCount == 3) = true := by decide

/-- D21, D22: a mode key's press and an ordinary release change nothing but the flags. -/
theorem test_ignored :
    polled 0x132 s0 (fun t => t.modeIndex == 0 && t.out == [] && !t.extendedPending) = true ∧
    polled 0x121 s0 (fun t => t.modeIndex == 0 && t.out == [] && !t.extendedPending) = true ∧
    polled 0x232 s0 (fun t => t.modeIndex == 0 && t.out == [] && !t.breakPending) = true := by decide

/-- D18, D27, D28, D30: ordinary presses in mode 0; `E` is not looked at. -/
theorem test_ordinary_presses : ([
    (0x075, 0x60), (0x15A, 0x28), (0x14A, 0x38), (0x01C, 0x04), (0x000, 0x00), (0x0FF, 0x00), (0x01F, 0x00)] :
    List (Nat × Keycode)).all (fun p => polled p.1 { s0 with modifierMask := 0x0002 } fun t =>
      t.out == key p.2 0x0002) = true := by decide

/-- T1 to T9. -/
theorem test_translate : ([
    (0x1C, 0x04), (0x83, 0x40), (0x84, 0), (0x00, 0), (0xFF, 0), (0x11, 0), (0x77, 0x53), (0x45, 0x27), (0x90, 0)] :
    List (Byte × Keycode)).all (fun p => translateCode referenceConfig p.1 == p.2) = true := by decide

/-! ### The mode engine (M1 to M34) -/

/-- M1, M2. -/
theorem test_identity_and_zero :
    gives (exec (.modeIdentity 0x04 0x0002) s0) (fun t => t.out == key 0x04 0x0002) = true ∧
    gives (exec (.modeDigraph 0 0x0002) { s0 with dgPrevKey := 0x15 })
      (fun t => t.out == key 0 0x0002 && t.dgPrevKey == 0x15) = true := by decide

/-- M3, the second event: R with shift, then Z. -/
theorem test_digraph_fires :
    gives (exec (.modeDigraph 0x1D 0x0000) { s0 with dgPrevKey := 0x15, dgPrevMods := 0x0002 })
      (fun t => t.out == key 0x2A 0 ++ key 0x1D 0x0042 && t.dgPrevKey == 0x1D && t.dgPrevMods == 0) = true := by decide

/-- M7, the second event: right Alt on Z, no match. -/
theorem test_digraph_no_match :
    gives (exec (.modeDigraph 0x1D 0x0040) { s0 with dgPrevKey := 0x15 })
      (fun t => t.out == key 0x1D 0x0040 && t.dgPrevMods == 0x0040) = true := by decide

/-- M13, and the sixth letter of L1-7: right Alt is taken off the injected letter, not off a letter passed through. -/
theorem test_word_substitute_letters :
    gives (exec (.modeWordSubstitute 0x04 0x0042) s0) (fun t => t.out == key 0x0B 0x0002 && t.wsCount == 1) = true ∧
    gives (exec (.modeWordSubstitute 0x09 0x0040) { s0 with wsCount := 5 })
      (fun t => t.out == key 0x09 0x0040 && t.wsCount == 6) = true := by decide

/-- Log 22: a backspace inside the alphanumeric range is a backspace, not a letter. -/
theorem test_backspace_in_range :
    gives (exec (.modeWordSubstitute 0x04 0) { s0 with wsCount := 2, cfg := { testConfig with kcBackspace := 0x04 } })
      (fun t => t.out == key 0x04 0 && t.wsCount == 1) = true ∧
    gives (exec (.modeWordReverse 0x04 0) { s0 with wrCount := 2, cfg := { testConfig with kcBackspace := 0x04 } })
      (fun t => t.out == key 0x04 0 && t.wrCount == 1) = true := by decide

/-- M14, and M16's boundary: the flush has the boundary's mask without right Alt. -/
theorem test_word_substitute_boundary :
    gives (exec (.modeWordSubstitute 0x2A 0) s0) (fun t => t.out == key 0x2A 0 && t.wsCount == 0) = true ∧
    gives (exec (.modeWordSubstitute 0x2C 0x0042) { s0 with wsCount := 2 })
      (fun t => t.out == key 0x07 0x0002 ++ key 0x12 0x0002 ++ key 0x15 0x0002 ++ key 0x2C 0x0042 && t.wsCount == 0)
      = true := by decide

/-- M28, and R118's append. -/
theorem test_word_reverse_letters :
    gives (exec (.modeWordReverse 0x2A 0) s0) (fun t => t.out == key 0x2A 0 && t.wrCount == 0) = true ∧
    gives (exec (.modeWordReverse 0x04 0x0002) s0)
      (fun t => t.out == key 0x04 0x0002 && t.wrCount == 1 && t.wrBuf == [(0, ⟨0x04, 0x0002⟩)]) = true := by decide

/-- M23's boundary: the capital stays first. -/
theorem test_word_reverse_boundary :
    gives (exec (.modeWordReverse 0x2C 0)
        { s0 with wrCount := 3, wrBuf := [(0, ⟨0x04, 0x0002⟩), (1, ⟨0x05, 0⟩), (2, ⟨0x06, 0⟩)] })
      (fun t => t.out == key 0x2A 0 ++ key 0x2A 0 ++ key 0x2A 0 ++ key 0x06 0x0002 ++ key 0x05 0 ++ key 0x04 0 ++
        key 0x2C 0 && t.wrCount == 0) = true := by decide

/-- M33: the letters of the drawn word have exactly left shift. -/
theorem test_random_interject_word :
    gives (exec (.modeRandomInterject 0x37 0x0003) { s0 with draws := [8] })
      (fun t => t.out == key 0x2C 0 ++ key 0x0B 0x0002 ++ key 0x0C 0x0002 ++ key 0x37 0x0003 && t.draws == []) = true := by
  decide

/-- M31, M32: no draw for a letter; an empty entry gives the space only. -/
theorem test_random_interject_others :
    gives (exec (.modeRandomInterject 0x04 0x0002) { s0 with draws := [8] })
      (fun t => t.out == key 0x04 0x0002 && t.draws == [8]) = true ∧
    gives (exec (.modeRandomInterject 0x2C 0) { s0 with draws := [3] }) (fun t => t.out == key 0x2C 0 ++ key 0x2C 0)
      = true := by decide

/-! ### The sink and RESET -/

/-- R64, R31. -/
theorem test_sink_ops :
    gives (exec (.setMods 0x0042) s0) (fun t => t.sink.mods == 0x0042 && t.out == [.setMods 0x0042]) = true ∧
    gives (exec (.setKey 0x4A) s0) (fun t => t.sink.key == 0x4A && t.out == [.setKey 0x4A]) = true ∧
    gives (exec .send { s0 with sink := ⟨2, 4, []⟩ }) (fun t => t.sink.reports == [(2, 4)] && t.out == [.send]) = true := by
  decide

/-- Vector R1: after RESET the mask, the flags and the counters are at their reset values; the queue storage and the
sink stand. -/
theorem test_reset :
    gives (exec .reset { queued false true 0x12 with
        modifierMask := 0x0002, modeIndex := 3, wsCount := 2, sink := ⟨2, 4, []⟩ })
      (fun t => t == { s0 with buf := [(0, 0x12)], sink := ⟨2, 4, []⟩ }) = true := by decide

/-- The next step after reset runs the presented word (log 3); with nothing presented it is idle (R138). -/
theorem test_step :
    gives (step (State.reset.withFetchWord 2 1)) (fun t => t.polls == [false]) = true ∧
    gives (step State.reset) (fun t => t.presented == [] && t.out == []) = true := by decide

/-! ### Witnesses of the statements' hypotheses -/

/-- A state that meets the invariants of R33, with unread codes, a partial frame and buffered letters. -/
def sBusy : State :=
  { s0 with
    buf := [(0, 0xE0), (44, 0x1C)], head := 1, tail := 44, bitCount := 3, shiftRegister := 0x01, modifierMask := 0x0042,
    modeIndex := 3, wrBuf := [(0, ⟨0x04, 0x0002⟩), (1, ⟨0x05, 0⟩)], wrCount := 2, wsCount := 6, draws := [15] }

theorem test_witness_invariants : Invariants sBusy where
  params := by decide +kernel
  paramsModel := by decide +kernel
  headInRange := by decide
  tailInRange := by decide
  unreadWritten := by decide
  bufCanonical := by decide
  bufInRange := by decide
  bitCountInRange := by decide
  shiftRegisterPartial := by decide
  lastEdgeTimeInRange := by decide
  modifierMaskHigh := by decide
  dgPrevModsHigh := by decide
  modeIndexInRange := by decide
  wsCountInRange := by decide
  wrCountInRange := by decide
  wrBufWritten := by decide
  wrBufCanonical := by decide
  wrBufInRange := by decide

/-- The invariants of an empty queue (QueueDeliversInOrder), with room for the codes listed. -/
theorem test_witness_empty_queue :
    Invariants { sBusy with tail := 1 } ∧ { sBusy with tail := 1 }.head = { sBusy with tail := 1 }.tail ∧ [0x1C, 0x32, (0x21 : Byte)].length ≤ sBusy.cfg.qcap :=
  ⟨{ test_witness_invariants with tailInRange := by decide, unreadWritten := by decide }, rfl, by decide⟩

/-- QueueDeliversInOrder and PopDeliversTheFirstUnread from a queue that holds two codes: pops and pushes in turn, to an
empty queue and on. -/
theorem test_witness_interleaving :
    (match accessAll [.pop, .push 0x32, .pop, .pop, .pop, .push 0x21] sBusy with
      | .next (accepted, delivered, t) =>
        accepted == [0x32, 0x21] && delivered == [0x1C, 0xE0, 0x32] && unread sBusy == [0x1C, 0xE0] && unread t == [0x21]
      | _ => false) = true := by decide

/-- A full queue (PushNeverOverwritesUnread, BurstDropsExactlyTheExcess): the push drops. -/
theorem test_witness_full_queue : push 0x1C { s0 with head := 44 } = .next (false, { s0 with head := 44 }) := rfl

/-- BlockNeverStops, TransactionsComplete, StepKeepsInvariants: one word of each kind is the environment's. -/
theorem test_witness_environment :
    EnvOk { sBusy with presented := [⟨.transaction, 1⟩, ⟨.transaction, 0⟩, ⟨.transaction, 2⟩, ⟨.frame, 0x0E1⟩] } ∧
    gives (step { sBusy with presented := [⟨.transaction, 1⟩] }) (fun t => t.polls == [true]) = true :=
  ⟨⟨by decide, by decide⟩, by decide⟩

/-- DecodeOfEncodeIsTheInstruction and EncodeOfDecodeIsTheWord. -/
theorem test_witness_encode :
    (Instr.makeKey true 0x4A).wellFormed = true ∧ decode ⟨.decodeWord, 0x14A⟩ = .ok (.makeKey true 0x4A) := by decide

/-- OpcodeMapRowsAreDisjoint, the catch-all clause. -/
theorem test_witness_no_named_row : (namedRows.all fun r => decodeWordOf true true 0x1C &&& r.mask != r.mtch) = true := by
  decide

/-- ReservedWordsAreRefused, each clause at its ends. -/
theorem test_witness_reserved :
    ([3, 7, 0xFFFFFFFF].all fun v => refuses (step { s0 with presented := [⟨.transaction, v⟩] }) (.undecodable .reservedTag))
      = true ∧
    ([0x30000, 0x3FFFF].all fun v => refuses (step { s0 with presented := [⟨.sinkOp, v⟩] }) (.undecodable .reservedSinkOp))
      = true ∧
    ([5, 7, 0x7FFFFFFFF].all fun v =>
      refuses (step { s0 with presented := [⟨.modeIndex, v⟩] }) (.undecodable .reservedModeIndex)) = true := by decide

/-- StepRunsThePresentedInstruction. -/
theorem test_witness_step :
    (queued false false 0x1C).withFetchWord 2 1 = { queued false false 0x1C with presented := [⟨.transaction, 1⟩] } ∧
    decode ⟨.transaction, 1⟩ = .ok .poll ∧ s0.presented = [] := by decide

/-- PollRunsTheDecodedRow and PopTakesTheOldest, both clauses. -/
theorem test_witness_poll :
    s0.head = s0.tail ∧ sBusy.head ≠ sBusy.tail ∧ sBusy.tail < sBusy.cfg.qsize ∧
    Memory.read sBusy.buf sBusy.tail = some 0x1C := by decide

/-- EdgeTransaction: a middle edge, a last edge with room, a last edge at a full queue. -/
theorem test_witness_edge :
    (sBusy.lastEdgeTime < 2 ^ sBusy.cfg.timeWidth ∧ sBusy.head < sBusy.cfg.qsize) ∧
    sBusy.bitCount + 1 ≠ sBusy.cfg.frameEdges ∧ 10 + 1 = sBusy.cfg.frameEdges ∧
    (sBusy.head + 1) % sBusy.cfg.qsize ≠ sBusy.tail ∧ (44 + 1) % s0.cfg.qsize = s0.tail := by decide

/-- FrameDeliversItsDataBits and MisalignedFrameShiftsTheCode, the gap at its limit. -/
theorem test_witness_frames :
    (s0.cfg.frameEdges = 11 ∧ s0.bitCount = 0 ∧ s0.shiftRegister = 0 ∧ s0.head < s0.cfg.qsize) ∧
    ({ s0 with bitCount := 1 }.bitCount = 1) ∧
    (250 % 2 ^ s0.cfg.timeWidth + 2 ^ s0.cfg.timeWidth - s0.lastEdgeTime) % 2 ^ s0.cfg.timeWidth ≤ s0.cfg.idleTimeoutMs ∧
    (s0.head + 1) % s0.cfg.qsize ≠ s0.tail := by decide

/-- IdleGapAbandonsThePartialFrame: a gap of 251, and one of exactly 250. -/
theorem test_witness_idle_gap :
    (sBusy.lastEdgeTime < 2 ^ sBusy.cfg.timeWidth ∧ sBusy.cfg.frameEdges ≠ 1) ∧
    sBusy.cfg.idleTimeoutMs < (251 % 2 ^ 32 + 2 ^ 32 - sBusy.lastEdgeTime) % 2 ^ 32 ∧
    (250 % 2 ^ 32 + 2 ^ 32 - sBusy.lastEdgeTime) % 2 ^ 32 = sBusy.cfg.idleTimeoutMs ∧
    sBusy.bitCount + 1 ≠ sBusy.cfg.frameEdges := by decide

/-- EachAccessTouchesOneEntry, each clause; PushStoresOrDrops. -/
theorem test_witness_accesses :
    (∃ t, push 0x32 s0 = .next (true, t)) ∧ (∃ t, pop sBusy = .next (some 0x1C, t)) ∧
    (∃ t, bufWrite 31 ⟨0x04, 0⟩ s0 = .next t) ∧ s0.head < s0.cfg.qsize :=
  ⟨⟨_, rfl⟩, ⟨_, rfl⟩, ⟨_, rfl⟩, by decide⟩

/-- TerminalCodesClearTheFlags: a terminal code and both prefixes, with both flags set. -/
theorem test_witness_terminal :
    ([0x1C, 0xF0, 0xE0] : List Byte).all (fun c =>
      gives (decodeStep c { s0 with breakPending := true, extendedPending := true }) fun _ => true) = true := by decide

/-- The modifier statements: a code of each with its bit; a press and the release of the same row. -/
theorem test_witness_modifiers :
    modbit referenceMods true 0x27 = some 0x0080 ∧ modbit referenceMods false 0x12 = some 0x0002 ∧
    (pressRows s0.cfg.mods true)[7]? = some (.makeRGui, 0x0080) ∧
    (releaseRows s0.cfg.mods false)[7]? = some (.breakRGui, 0x0080) ∧
    (∃ t v, exec .makeRGui s0 = .next t ∧ exec .breakRGui t = .next v) :=
  ⟨by decide, by decide, by decide, by decide, _, _, rfl, rfl⟩

/-- The navigation statements have nine rows; ModeSwitchIsClamped's premises. -/
theorem test_witness_navigation_and_modes :
    (navRows s0.cfg.navmap).length = 9 ∧ 1 ≤ s0.cfg.numModes ∧ s0.cfg.numModes ≤ 5 := by decide

/-- TranslateLooksUpTheKeymap at the last index and the first beyond it; ordinary codes. -/
theorem test_witness_translate :
    (0x83#8).toNat < referenceConfig.keymapSize ∧ referenceConfig.keymapSize ≤ (0x84#8).toNat ∧
    referenceConfig.keymapSize ≤ 255 ∧ isOrdinaryCode true 0x1C = true ∧ isOrdinaryCode false 0x75 = true := by decide

/-- OrdinaryPressGoesToTheActiveMode in the first and the last mode; KeycodeZeroIsNeutral. -/
theorem test_witness_ordinary_press :
    modeRow 0 (translateCode testConfig 0x1C) 0 = some (.modeIdentity 0x04 0) ∧
    modeRow 4 (translateCode testConfig 0x1C) 0 = some (.modeRandomInterject 0x04 0) ∧
    translateCode testConfig 0x84 = 0 := by decide

/-- OrdinaryPressCompletes. -/
theorem test_witness_press_completes :
    sBusy.modeIndex.toNat ≤ 4 ∧ sBusy.wrCount ≤ sBusy.cfg.wrCap ∧
    (∀ i, i < sBusy.wrCount → (Memory.read sBusy.wrBuf i).isSome = true) ∧
    (∀ r ∈ sBusy.draws, r < sBusy.cfg.dictSize) ∧ 0 < sBusy.cfg.dictSize := by decide

/-- The Digraph statements: DG1 fires, behind a rule that does not match; and no rule matches. -/
theorem test_witness_digraph :
    (0x1D : Keycode) ≠ 0 ∧ digraphMatches { referenceDg1 with curKey := 0x04 } 0x15 0 0x1D 0 = false ∧
    (referenceDg1.prevKey = some 0x15 ∧ (0 : Mods) &&& referenceDg1.prevMask = referenceDg1.prevVal) ∧
    0x1D = referenceDg1.curKey ∧ (0 : Mods) &&& referenceDg1.curMask = referenceDg1.curVal ∧
    (∀ r ∈ s0.cfg.digraphRules, digraphMatches r s0.dgPrevKey s0.dgPrevMods 0x1D 0 = false) := by decide

/-- The key classes of the word modes at their ends: the alphanumeric range, the keys on both sides of it, backspace. -/
theorem test_witness_key_classes :
    (s0.cfg.kcBackspace ≠ 0) ∧ ([0x04, 0x27] : List Keycode).all (fun k => isAlnum s0.cfg k && k != s0.cfg.kcBackspace) = true ∧
    ([0x03, 0x28, 0x2C] : List Keycode).all (fun k => !isAlnum s0.cfg k && k != s0.cfg.kcBackspace && k != 0) = true := by
  decide

/-- The counts of the word modes at their ends. -/
theorem test_witness_counts :
    4 < s0.cfg.word.length ∧ s0.cfg.word.length ≤ 5 ∧ 31 < s0.cfg.wrCap ∧ s0.cfg.wrCap ≤ 32 ∧
    sBusy.wrCount = [(⟨0x04, 0x0002⟩ : WrEntry), ⟨0x05, 0⟩].length ∧
    (∀ j, j < 2 → Memory.read sBusy.wrBuf j = [(⟨0x04, 0x0002⟩ : WrEntry), ⟨0x05, 0⟩][j]?) := by decide

/-- The RandomInterject statements: each boundary key, a letter, a draw at both ends, no draw listed. -/
theorem test_witness_draws :
    ([0x2C, 0x28, 0x37, 0x36] : List Keycode).all (fun k => isSentenceKey s0.cfg k && k != 0) = true ∧
    isSentenceKey s0.cfg 0x04 = false ∧ 15 < s0.cfg.dict.length ∧ s0.cfg.dict.length ≤ 16 ∧ s0.draws = [] ∧
    refuses (exec (.modeRandomInterject 0x2C 0) { s0 with draws := [16] }) .drawOutOfRange = true := by decide

/-- DictionaryWordEndsAtItsTerminator: an entry with a terminator, one without, the last reserved one. -/
theorem test_witness_dictionary :
    dictWord testConfig 8 = [0x0B, 0x0C] ∧ dictWord testConfig 15 = [0x0B, 0x12, 0x07, 0x12] ∧
    7 < testConfig.dictFirstPopulated := by decide

/-- The frames over all instructions (SinkIsWrittenInOrderAndNeverRead, AgentsShareOnlyTheQueue, ParametersAreConstant,
ContextsBelongToTheirMode): each premise is met by a next state. -/
theorem test_witness_frame_statements :
    (∃ t, exec .makeNavUp sBusy = .next t) ∧ (∃ t, exec (.edge true 0) sBusy = .next t) ∧
    (∃ t, exec (.frame 0x0E1 0) sBusy = .next t) ∧ sBusy.cfg.clearContextOnSwitch = false ∧
    (∃ t, exec .poll sBusy = .next t) :=
  ⟨⟨_, rfl⟩, ⟨_, rfl⟩, ⟨_, rfl⟩, rfl, ⟨_, rfl⟩⟩

/-- OnlyModeSwitchesChangeTheMode and OnlyModifiersChangeTheMask: a row and a POLL that change them. -/
theorem test_witness_changes :
    gives (exec .modeNext s0) (fun t => t.modeIndex != s0.modeIndex) = true ∧
    polled 0x321 (inMode 4) (fun t => t.modeIndex != 4) = true ∧
    gives (exec .makeLAlt s0) (fun t => t.modifierMask != s0.modifierMask) = true ∧
    polled 0x127 s0 (fun t => t.modifierMask != 0) = true := by decide

end Sys2Proof.Tests
end

section
/-! PROOFS. The sink is written in order and never read (spec/10_state.md R31): each way the model builds a computation
keeps it from reading the sink, and `exec` is built in these ways only. -/

namespace Sys2Proof.Proofs

open Sys2Proof Sys2Proof.Machine Sys2Proof.Claims

/-- `s` with the sink `k` in place of its own. -/
def withSink (s : State) (k : Sink) : State := { s with sink := k }

/-- `f` appends sink operations to the stream and, whatever sink stands in the state, does the same to everything else
while the sink takes these operations in order. -/
def SinkBlind (f : State → Answer State) : Prop :=
  ∀ s t, f s = .next t → ∃ ops, t.out = s.out ++ ops ∧
    ∀ k, f (withSink s k) = .next (withSink t (ops.foldl Sink.apply k))

/-- `f` answers a value and has no dealings with the sink or the stream. -/
def SinkSilent {α : Type} (f : State → Answer (α × State)) : Prop :=
  ∀ s a t, f s = .next (a, t) → t.out = s.out ∧ ∀ k, f (withSink s k) = .next (a, withSink t k)

/-! ### The ways a computation is built -/

/-- An update that appends `ops s` to the stream and applies them at the sink. -/
theorem SinkBlind.writes {ops : State → List SinkOp} {u : State → State}
    (hout : ∀ s, (u s).out = s.out ++ ops s := by exact fun _ => rfl)
    (hsink : ∀ s k, u (withSink s k) = withSink (u s) ((ops s).foldl Sink.apply k) := by exact fun _ _ => rfl) :
    SinkBlind fun s => .next (u s) := by
  intro s t h
  cases h
  exact ⟨ops s, hout s, fun k => congrArg _ (hsink s k)⟩

/-- An update that leaves the stream and the sink alone. -/
theorem SinkBlind.silent {u : State → State} (hout : ∀ s, (u s).out = s.out := by exact fun _ => rfl)
    (hsink : ∀ s k, u (withSink s k) = withSink (u s) k := by exact fun _ _ => rfl) :
    SinkBlind fun s => .next (u s) :=
  .writes (ops := fun _ => []) (fun s => by simp [hout s]) hsink

theorem SinkBlind.fault (r : Fault) : SinkBlind fun _ => .fault r := fun _ _ h => nomatch h

theorem SinkBlind.refused (r : Refusal) : SinkBlind fun _ => .refused r := fun _ _ h => nomatch h

/-- A computation may depend on any value that is not read from the sink. -/
theorem SinkBlind.reading {β : Type} {v : State → β} {g : β → State → Answer State}
    (hv : ∀ s k, v (withSink s k) = v s) (hg : ∀ b, SinkBlind (g b)) : SinkBlind fun s => g (v s) s := by
  intro s t h
  obtain ⟨ops, hout, hsink⟩ := hg (v s) s t h
  exact ⟨ops, hout, fun k => by simp only [hv, hsink k]⟩

/-- A sequence whose first part only reads, and not from the sink. -/
theorem SinkBlind.bindRead {α : Type} {f : State → Answer α} {g : α → State → Answer State}
    (hf : ∀ s k, f (withSink s k) = f s) (hg : ∀ a, SinkBlind (g a)) :
    SinkBlind fun s => Machine.andThen (f s) fun a => g a s := by
  intro s t h
  obtain ⟨a, h1, h2⟩ := andThen_eq_next.1 h
  obtain ⟨ops, hout, hsink⟩ := hg a s t h2
  exact ⟨ops, hout, fun k => by simp only [hf, h1, andThen_next, hsink k]⟩

/-- A branch on a condition that is not read from the sink. -/
theorem SinkBlind.ite {c : State → Prop} [DecidablePred c] {f g : State → Answer State} (hf : SinkBlind f)
    (hg : SinkBlind g) (hc : ∀ s k, c (withSink s k) ↔ c s := by exact fun _ _ => .rfl) :
    SinkBlind fun s => if c s then f s else g s := by
  intro s t h
  by_cases hs : c s
  · simp only [hc, hs, if_true] at h ⊢
    exact hf s t h
  · simp only [hc, hs, if_false] at h ⊢
    exact hg s t h

/-- In a sequence the operations of the second part follow those of the first. -/
theorem SinkBlind.andThen {f g : State → Answer State} (hf : SinkBlind f) (hg : SinkBlind g) :
    SinkBlind fun s => Machine.andThen (f s) g := by
  intro s t h
  obtain ⟨u, h1, h2⟩ := andThen_eq_next.1 h
  obtain ⟨ops1, hout1, hsink1⟩ := hf s u h1
  obtain ⟨ops2, hout2, hsink2⟩ := hg u t h2
  refine ⟨ops1 ++ ops2, by rw [hout2, hout1, List.append_assoc], fun k => ?_⟩
  simp only [hsink1, andThen_next, hsink2, List.foldl_append]

/-- A silent operation, then a computation that may depend on the value it answers. -/
theorem SinkSilent.bind {α : Type} {f : State → Answer (α × State)} {g : α → State → Answer State}
    (hf : SinkSilent f) (hg : ∀ a, SinkBlind (g a)) :
    SinkBlind fun s => Machine.andThen (f s) fun r => g r.1 r.2 := by
  intro s t h
  obtain ⟨⟨a, u⟩, h1, h2⟩ := andThen_eq_next.1 h
  obtain ⟨hout1, hsink1⟩ := hf s a u h1
  obtain ⟨ops, hout, hsink⟩ := hg a u t h2
  exact ⟨ops, by rw [hout, hout1], fun k => by simp only [hsink1, andThen_next, hsink]⟩

/-! ### The shared operations -/

theorem push_sinkSilent (code : Byte) : SinkSilent (push code) := by
  intro s ok t h
  obtain ⟨rfl, hfull, rfl⟩ | ⟨rfl, hroom, hh, rfl⟩ := push_eq_next.1 h
  · exact ⟨rfl, fun k => push_of_full (s := withSink t k) hfull⟩
  · exact ⟨rfl, fun k => push_of_room (s := withSink s k) hroom hh⟩

theorem pop_sinkSilent : SinkSilent pop := by
  intro s r t h
  obtain ⟨hempty, rfl, rfl⟩ | ⟨code, hne, ht, hread, rfl, rfl⟩ := pop_eq_next.1 h
  · exact ⟨rfl, fun k => pop_of_empty (s := withSink t k) hempty⟩
  · exact ⟨rfl, fun k => pop_of_code (s := withSink s k) hne ht hread⟩

/-- Listed or free, the value drawn and the test of its range are the same with any sink. -/
theorem draw_sinkSilent : SinkSilent draw := by
  intro s r t h
  unfold draw withSink at *
  cases hd : s.draws
  all_goals
    simp only [hd] at h ⊢
    split at h <;> cases h
    exact ⟨rfl, fun k => if_pos ‹_›⟩

theorem bufWrite_sinkBlind (i : Nat) (x : WrEntry) : SinkBlind (bufWrite i x) := .ite .silent (.fault _)

theorem bufReadFrom_withSink (s : State) (k : Sink) (i n : Nat) :
    bufReadFrom (withSink s k) i n = bufReadFrom s i n := by
  induction n generalizing i with
  | zero => rfl
  | succ n ih => simp only [bufReadFrom, ih]; rfl

theorem emit_sinkBlind (k : Keycode) (m : Mods) : SinkBlind fun s => .next (emit k m s) := .writes

theorem emitAll_sinkBlind (keys : List (Keycode × Mods)) : SinkBlind fun s => .next (emitAll keys s) := .writes

theorem clearFlags_sinkBlind : SinkBlind fun s => .next (clearFlags s) := .silent

/-! ### The modes -/

theorem digraph_sinkBlind (k : Keycode) (m : Mods) : SinkBlind (digraph k m) := .writes

theorem wordSubstitute_sinkBlind (k : Keycode) (m : Mods) : SinkBlind (wordSubstitute k m) :=
  .ite .writes (.ite (.ite .writes .writes) .writes)

/-- A letter put in the WordReverse buffer at index `wr_count` and sent on (R118). -/
theorem bufferLetter_sinkBlind (k : Keycode) (m : Mods) : SinkBlind fun s =>
    Machine.andThen (bufWrite s.wrCount { key := k, mods := m } s) fun s1 =>
      .next (emit k m { s1 with wrCount := s.wrCount + 1 }) :=
  .reading (v := State.wrCount) (g := fun n s => Machine.andThen (bufWrite n { key := k, mods := m } s) fun s1 =>
      .next (emit k m { s1 with wrCount := n + 1 })) (fun _ _ => rfl) fun n =>
    (bufWrite_sinkBlind n _).andThen .writes

theorem wordReverse_sinkBlind (k : Keycode) (m : Mods) : SinkBlind (wordReverse k m) :=
  .ite .writes <|
  .ite (.ite (bufferLetter_sinkBlind k m) (emit_sinkBlind k m)) <|
  .bindRead (fun s k => bufReadFrom_withSink s k 0 s.wrCount) fun _ => .writes

/-- What a RandomInterject boundary key `k` sends when the draw is `r` (R123). -/
def interjectKeys (c : Config) (k : Keycode) (m : Mods) (r : Nat) : List (Keycode × Mods) :=
  (c.kcSpace, 0x0000) :: (dictWord c r).map (fun l => (l, c.mods.lshift)) ++ [(k, m)]

theorem randomInterject_sinkBlind (k : Keycode) (m : Mods) : SinkBlind (randomInterject k m) :=
  .ite
    (.reading (v := State.cfg)
      (g := fun c s => Machine.andThen (draw s) fun p => .next (emitAll (interjectKeys c k m p.1) p.2))
      (fun _ _ => rfl) fun c => draw_sinkSilent.bind fun r => emitAll_sinkBlind (interjectKeys c k m r))
    (emit_sinkBlind k m)

theorem modeEvent_sinkBlind {mode : Keycode → Mods → State → Answer State} {k : Keycode} {m : Mods}
    (h : SinkBlind (mode k m)) : SinkBlind (modeEvent mode k m) :=
  .ite (emit_sinkBlind 0 m) h

theorem modeApply_sinkBlind (k : Keycode) (m : Mods) : SinkBlind (modeApply k m) :=
  .ite (emit_sinkBlind 0 m) <|
  .reading (v := fun s => s.modeIndex.toNat) (g := fun i s => match i with
    | 0 => execModeIdentity k m s
    | 1 => execModeDigraph k m s
    | 2 => execModeWordSubstitute k m s
    | 3 => execModeWordReverse k m s
    | 4 => execModeRandomInterject k m s
    | _ => .fault .modeIndexUnreachable) (fun _ _ => rfl) fun i => match i with
    | 0 => modeEvent_sinkBlind (emit_sinkBlind k m)
    | 1 => modeEvent_sinkBlind (digraph_sinkBlind k m)
    | 2 => modeEvent_sinkBlind (wordSubstitute_sinkBlind k m)
    | 3 => modeEvent_sinkBlind (wordReverse_sinkBlind k m)
    | 4 => modeEvent_sinkBlind (randomInterject_sinkBlind k m)
    | _ + 5 => .fault _

/-! ### The rows of the opcode map -/

/-- A mode switch, by whether it clears the contexts (R108). -/
theorem switchMode_eq_ite (new : BitVec 3) (s : State) : switchMode new s =
    if (s.cfg.clearContextOnSwitch && new != s.modeIndex) = true then
      clearFlags { clearContexts s with modeIndex := new }
    else clearFlags { s with modeIndex := new } := by
  unfold switchMode
  split <;> rfl

theorem switchMode_sinkBlind (new : BitVec 3) : SinkBlind fun s => .next (switchMode new s) := by
  simp only [switchMode_eq_ite, apply_ite]
  exact .ite .silent .silent

theorem makeKey_sinkBlind (e : Bool) (code : Byte) : SinkBlind (execMakeKey e code) :=
  .andThen
    (.reading (v := fun s => (translateCode s.cfg code, s.modifierMask)) (g := fun p s => modeApply p.1 p.2 s)
      (fun _ _ => rfl) fun p => modeApply_sinkBlind p.1 p.2)
    clearFlags_sinkBlind

/-- Every row but MAKE_KEY and the mode switches is one update, which either leaves stream and sink alone or writes
operations that do not depend on the sink. -/
theorem runRow_sinkBlind (i : Instr) : SinkBlind (runRow i) := by
  cases i with
  | makeKey e code => exact makeKey_sinkBlind e code
  | modeNext =>
    exact .reading (v := fun s => nextModeIndex s.cfg s.modeIndex) (g := fun i s => .next (switchMode i s))
      (fun _ _ => rfl) switchMode_sinkBlind
  | modePrev =>
    exact .reading (v := fun s => prevModeIndex s.modeIndex) (g := fun i s => .next (switchMode i s))
      (fun _ _ => rfl) switchMode_sinkBlind
  | pfxBreak | pfxExt | breakKey | makeModeNextIgnored | makeModePrevIgnored => exact .silent
  | frame | edge | poll | reset | setMods | setKey | send | modeIdentity | modeDigraph | modeWordSubstitute
  | modeWordReverse | modeRandomInterject => exact .refused _
  | _ => exact .writes

/-! ### The transactions -/

theorem finishEdge_sinkBlind (bc : Nat) (sr : Byte) : SinkBlind (finishEdge bc sr) :=
  .ite
    ((push_sinkSilent sr).bind (g := fun _ s => .next { s with bitCount := 0, shiftRegister := 0x00 }) fun _ => .silent)
    .silent

theorem edge_sinkBlind (d : Bool) (t : Nat) : SinkBlind (edge d t) :=
  .reading (v := fun s => (t % 2 ^ s.cfg.timeWidth, frameAtEdge (t % 2 ^ s.cfg.timeWidth) s))
    (g := fun p s => finishEdge (p.2.1 + 1) (sampleBit p.2.1 p.2.2 d) { s with lastEdgeTime := p.1 })
    (fun _ _ => rfl) fun p =>
      .andThen (f := fun s => .next { s with lastEdgeTime := p.1 }) .silent (finishEdge_sinkBlind _ _)

theorem edges_sinkBlind (ds : List Bool) (t : Nat) : SinkBlind (edges ds t) := by
  induction ds with
  | nil => exact .silent
  | cons d ds ih => exact (edge_sinkBlind d t).andThen ih

theorem decodeStep_sinkBlind (code : Byte) : SinkBlind (decodeStep code) :=
  .reading (v := fun s => decodeDecodeWord (decodeWordOf s.breakPending s.extendedPending code)) (g := runRow)
    (fun _ _ => rfl) runRow_sinkBlind

theorem returnConsumed_sinkBlind (v : Bool) : SinkBlind fun s => .next (returnConsumed v s) := .silent

theorem execPoll_sinkBlind : SinkBlind execPoll :=
  pop_sinkSilent.bind (g := fun r s => match r with
    | none => .next (returnConsumed false s)
    | some code => Machine.andThen (decodeStep code s) fun s1 => .next (returnConsumed true s1)) fun r => match r with
    | none => returnConsumed_sinkBlind false
    | some code => (decodeStep_sinkBlind code).andThen (returnConsumed_sinkBlind true)

/-- Every instruction appends its operations to the stream and reads nothing of the sink (R31, R53). -/
theorem exec_sinkBlind (i : Instr) : SinkBlind (exec i) := by
  have hrow := runRow_sinkBlind i
  cases i with
  | frame levels t => exact edges_sinkBlind (frameLevels levels) t
  | edge d t => exact edge_sinkBlind d t
  | poll => exact execPoll_sinkBlind
  | reset => exact .silent
  | setMods | setKey | send => exact .writes
  | modeIdentity k m => exact modeEvent_sinkBlind (emit_sinkBlind k m)
  | modeDigraph k m => exact modeEvent_sinkBlind (digraph_sinkBlind k m)
  | modeWordSubstitute k m => exact modeEvent_sinkBlind (wordSubstitute_sinkBlind k m)
  | modeWordReverse k m => exact modeEvent_sinkBlind (wordReverse_sinkBlind k m)
  | modeRandomInterject k m => exact modeEvent_sinkBlind (randomInterject_sinkBlind k m)
  | _ => exact hrow

/-- Settles O47: the three operations are their updates, and every instruction is blind to the sink. -/
theorem sinkIsWrittenInOrderAndNeverRead : Obligations.SinkIsWrittenInOrderAndNeverRead :=
  ⟨fun _ _ => rfl, fun _ _ => rfl, fun _ => rfl, exec_sinkBlind⟩

end Sys2Proof.Proofs
end

section
/-! PROOFS. What a push, a pop and a WordReverse append touch, and what the producer and the consumer share
(spec/20_memory.md R42, R47, R50). -/

namespace Sys2Proof.Proofs

open Sys2Proof Sys2Proof.Machine Sys2Proof.Claims

/-! ### One entry per access (R42) -/

/-- Settles O13: each access is one write or one read of the sparse storage. -/
theorem eachAccessTouchesOneEntry : Obligations.EachAccessTouchesOneEntry := by
  refine ⟨fun code s t h => ?_, fun code s t h => ?_, fun i x s t h => ?_⟩
  · obtain ⟨hfalse, -, -⟩ | ⟨-, -, -, rfl⟩ := push_eq_next.1 h
    · cases hfalse
    · exact ⟨rfl, fun i => Memory.read_write s.buf s.head i code⟩
  · obtain ⟨-, hnone, -⟩ | ⟨_, -, -, hread, hcode, rfl⟩ := pop_eq_next.1 h
    · cases hnone
    · cases hcode
      exact ⟨rfl, hread⟩
  · obtain ⟨-, rfl⟩ := bufWrite_eq_next.1 h
    exact ⟨rfl, fun j => Memory.read_write s.wrBuf i j x⟩

/-! ### The unread codes across a push (R50) -/

/-- The queue has no room exactly when it holds QCAP unread codes (R79, R81). -/
theorem full_iff_qcap_le_unread {s : State} (hI : Invariants s) :
    (s.head + 1) % s.cfg.qsize = s.tail ↔ s.cfg.qcap ≤ (unread s).length := by
  have hlt := queueCount_lt hI.headInRange
  rw [ring_full_iff hI.headInRange hI.tailInRange, ← queueCount_eq, unread_length, Config.qcap]
  omega

/-- A stored code is the last of the unread codes. -/
theorem unread_store {s : State} (hI : Invariants s) (hroom : (s.head + 1) % s.cfg.qsize ≠ s.tail) (code : Byte) :
    unread { s with buf := Memory.write s.buf s.head code, head := (s.head + 1) % s.cfg.qsize } =
      unread s ++ [code] := by
  have hat := fun i => unreadAt_push hI.headInRange hI.tailInRange code (i := i)
  rw [unread, queueCount_push hI.headInRange hI.tailInRange hroom, List.range_succ, List.map_append, unread]
  congr 1
  · refine List.map_congr_left fun i hi => ?_
    rw [List.mem_range] at hi
    rw [hat i hi.le, if_neg hi.ne]
  · simp [hat _ le_rfl]

/-- Settles O15: a push to a full queue changes nothing, and a stored code comes after the unread ones. -/
theorem pushNeverOverwritesUnread : Obligations.PushNeverOverwritesUnread := by
  intro code s hI
  by_cases hfull : (s.head + 1) % s.cfg.qsize = s.tail
  · have hlen := Nat.not_lt.2 ((full_iff_qcap_le_unread hI).1 hfull)
    simp only [hlen, decide_false, if_false]
    exact ⟨s, push_of_full hfull, rfl⟩
  · have hlen := Nat.not_le.1 (mt (full_iff_qcap_le_unread hI).2 hfull)
    simp only [hlen, decide_true, if_true]
    exact ⟨_, push_of_room hfull hI.headInRange, unread_store hI hfull code⟩

/-! ### Computations that neither read nor write a part of the state

`φ` replaces a part of the state: `f` is blind to that part when replacing it before or after `f` comes to the same. -/

/-- Whenever `f` answers a state, it answers on `φ s` the same state with the same part replaced. -/
def BlindTo (φ : State → State) (f : State → Answer State) : Prop :=
  ∀ s t, f s = .next t → f (φ s) = .next (φ t)

/-- The same for an `f` that answers a value beside the state: the value is the same too. -/
def ValueBlindTo {α : Type} (φ : State → State) (f : State → Answer (α × State)) : Prop :=
  ∀ s a t, f s = .next (a, t) → f (φ s) = .next (a, φ t)

section
variable {φ : State → State}

theorem BlindTo.update {u : State → State} (hu : ∀ s, u (φ s) = φ (u s) := by exact fun _ => rfl) :
    BlindTo φ fun s => .next (u s) := by
  intro s t h
  cases h
  exact congrArg _ (hu s)

theorem BlindTo.fault (r : Fault) : BlindTo φ fun _ => .fault r := fun _ _ h => nomatch h

theorem BlindTo.refused (r : Refusal) : BlindTo φ fun _ => .refused r := fun _ _ h => nomatch h

/-- A computation may depend on a value read outside the replaced part. -/
theorem BlindTo.reading {β : Type} {v : State → β} {g : β → State → Answer State} (hg : ∀ b, BlindTo φ (g b))
    (hv : ∀ s, v (φ s) = v s := by exact fun _ => rfl) : BlindTo φ fun s => g (v s) s := by
  intro s t h
  simpa only [hv] using hg (v s) s t h

theorem BlindTo.ite {c : State → Prop} [DecidablePred c] {f g : State → Answer State} (hf : BlindTo φ f)
    (hg : BlindTo φ g) (hc : ∀ s, c (φ s) ↔ c s := by exact fun _ => .rfl) :
    BlindTo φ fun s => if c s then f s else g s := by
  intro s t h
  by_cases hs : c s
  · simp only [hc, hs, if_true] at h ⊢
    exact hf s t h
  · simp only [hc, hs, if_false] at h ⊢
    exact hg s t h

theorem BlindTo.andThen {f g : State → Answer State} (hf : BlindTo φ f) (hg : BlindTo φ g) :
    BlindTo φ fun s => Machine.andThen (f s) g := by
  intro s t h
  obtain ⟨u, hfu, hgt⟩ := andThen_eq_next.1 h
  exact andThen_eq_next.2 ⟨φ u, hf s u hfu, hg u t hgt⟩

/-- A sequence whose first part only reads, and outside the replaced part. -/
theorem BlindTo.bindRead {α : Type} {f : State → Answer α} {g : α → State → Answer State}
    (hf : ∀ s, f (φ s) = f s) (hg : ∀ a, BlindTo φ (g a)) :
    BlindTo φ fun s => Machine.andThen (f s) fun a => g a s := by
  intro s t h
  obtain ⟨a, hfa, hgt⟩ := andThen_eq_next.1 h
  exact andThen_eq_next.2 ⟨a, (hf s).trans hfa, hg a s t hgt⟩

theorem ValueBlindTo.bind {α : Type} {f : State → Answer (α × State)} {g : α → State → Answer State}
    (hf : ValueBlindTo φ f) (hg : ∀ a, BlindTo φ (g a)) :
    BlindTo φ fun s => Machine.andThen (f s) fun r => g r.1 r.2 := by
  intro s t h
  obtain ⟨⟨a, u⟩, hfu, hgt⟩ := andThen_eq_next.1 h
  exact andThen_eq_next.2 ⟨(a, φ u), hf s a u hfu, hg a u t hgt⟩

end

/-! ### The producer is blind to the consumer's elements -/

theorem push_valueBlindTo_consumer (c : State) (code : Byte) : ValueBlindTo (withConsumer · c) (push code) := by
  intro s ok t h
  obtain ⟨rfl, hfull, rfl⟩ | ⟨rfl, hroom, hh, rfl⟩ := push_eq_next.1 h
  · exact push_of_full (s := withConsumer t c) hfull
  · exact push_of_room (s := withConsumer s c) hroom hh

theorem finishEdge_blindTo_consumer (c : State) (bc : Nat) (sr : Byte) :
    BlindTo (withConsumer · c) (finishEdge bc sr) :=
  .ite
    ((push_valueBlindTo_consumer c sr).bind (g := fun _ s => .next { s with bitCount := 0, shiftRegister := 0x00 })
      fun _ => .update)
    .update

theorem edge_blindTo_consumer (c : State) (d : Bool) (t : Nat) : BlindTo (withConsumer · c) (edge d t) :=
  .reading (v := fun s => (t % 2 ^ s.cfg.timeWidth, frameAtEdge (t % 2 ^ s.cfg.timeWidth) s))
    (g := fun p s => finishEdge (p.2.1 + 1) (sampleBit p.2.1 p.2.2 d) { s with lastEdgeTime := p.1 })
    fun p => .andThen (f := fun s => .next { s with lastEdgeTime := p.1 }) .update (finishEdge_blindTo_consumer c _ _)

theorem edges_blindTo_consumer (c : State) (ds : List Bool) (t : Nat) :
    BlindTo (withConsumer · c) (edges ds t) := by
  induction ds with
  | nil => exact .update
  | cons d ds ih => exact (edge_blindTo_consumer c d t).andThen ih

theorem andThen_answer_next {α : Type} (x : Answer α) : andThen x .next = x := by
  cases x <;> rfl

/-- EDGE and FRAME are runs of edges (R68). -/
theorem exec_eq_edges_of_producer {i : Instr} (hi : (∃ d t, i = .edge d t) ∨ (∃ levels t, i = .frame levels t)) :
    ∃ ds t, exec i = edges ds t := by
  obtain ⟨d, t, rfl⟩ | ⟨levels, t, rfl⟩ := hi
  · exact ⟨[d], t, funext fun s => (andThen_answer_next (edge d t s)).symm⟩
  · exact ⟨frameLevels levels, t, rfl⟩

/-! ### The consumer is blind to the framer -/

section
variable (p : State)

/-- Listed or free, the value drawn and the test of its range are the same with any framer. -/
theorem draw_valueBlindTo_framer : ValueBlindTo (withFramer · p) draw := by
  intro s r t h
  unfold draw withFramer at *
  cases hd : s.draws
  all_goals
    simp only [hd] at h ⊢
    split at h <;> cases h
    exact if_pos ‹_›

theorem bufWrite_blindTo_framer (i : Nat) (x : WrEntry) : BlindTo (withFramer · p) (bufWrite i x) :=
  .ite .update (.fault _)

theorem bufReadFrom_withFramer (s : State) (i n : Nat) : bufReadFrom (withFramer s p) i n = bufReadFrom s i n := by
  induction n generalizing i with
  | zero => rfl
  | succ n ih => simp only [bufReadFrom, ih]; rfl

theorem wordSubstitute_blindTo_framer (k : Keycode) (m : Mods) : BlindTo (withFramer · p) (wordSubstitute k m) :=
  .ite .update (.ite (.ite .update .update) .update)

/-- A letter put in the WordReverse buffer at index `wr_count` and sent on (R118). -/
theorem bufferLetter_blindTo_framer (k : Keycode) (m : Mods) : BlindTo (withFramer · p) fun s =>
    Machine.andThen (bufWrite s.wrCount { key := k, mods := m } s) fun s1 =>
      .next (emit k m { s1 with wrCount := s.wrCount + 1 }) :=
  .reading (v := State.wrCount) (g := fun n s => Machine.andThen (bufWrite n { key := k, mods := m } s) fun s1 =>
      .next (emit k m { s1 with wrCount := n + 1 })) fun n => (bufWrite_blindTo_framer p n _).andThen .update

theorem wordReverse_blindTo_framer (k : Keycode) (m : Mods) : BlindTo (withFramer · p) (wordReverse k m) :=
  .ite .update <|
  .ite (.ite (bufferLetter_blindTo_framer p k m) .update) <|
  .bindRead (fun s => bufReadFrom_withFramer p s 0 s.wrCount) fun _ => .update

theorem randomInterject_blindTo_framer (k : Keycode) (m : Mods) :
    BlindTo (withFramer · p) (randomInterject k m) :=
  .ite
    (.reading (v := State.cfg)
      (g := fun c s => Machine.andThen (draw s) fun r => .next (emitAll (interjectKeys c k m r.1) r.2))
      fun c => (draw_valueBlindTo_framer p).bind fun r => .update (u := emitAll (interjectKeys c k m r)))
    .update

theorem modeEvent_blindTo_framer {mode : Keycode → Mods → State → Answer State} {k : Keycode} {m : Mods}
    (h : BlindTo (withFramer · p) (mode k m)) : BlindTo (withFramer · p) (modeEvent mode k m) :=
  .ite .update h

/-- The dispatch reads the mode index, and each of the five modes is blind to the framer. -/
theorem modeApply_blindTo_framer (k : Keycode) (m : Mods) : BlindTo (withFramer · p) (modeApply k m) :=
  .ite .update <|
  .reading (v := fun s => s.modeIndex.toNat) (g := fun i s => match i with
    | 0 => execModeIdentity k m s
    | 1 => execModeDigraph k m s
    | 2 => execModeWordSubstitute k m s
    | 3 => execModeWordReverse k m s
    | 4 => execModeRandomInterject k m s
    | _ => .fault .modeIndexUnreachable) fun i => match i with
    | 0 => modeEvent_blindTo_framer p .update
    | 1 => modeEvent_blindTo_framer p .update
    | 2 => modeEvent_blindTo_framer p (wordSubstitute_blindTo_framer p k m)
    | 3 => modeEvent_blindTo_framer p (wordReverse_blindTo_framer p k m)
    | 4 => modeEvent_blindTo_framer p (randomInterject_blindTo_framer p k m)
    | _ + 5 => .fault _

theorem switchMode_blindTo_framer (new : BitVec 3) : BlindTo (withFramer · p) fun s => .next (switchMode new s) := by
  simp only [switchMode_eq_ite, apply_ite]
  exact .ite .update .update

theorem makeKey_blindTo_framer (e : Bool) (code : Byte) : BlindTo (withFramer · p) (execMakeKey e code) :=
  .andThen
    (.reading (v := fun s => (translateCode s.cfg code, s.modifierMask)) (g := fun q s => modeApply q.1 q.2 s)
      fun q => modeApply_blindTo_framer p q.1 q.2)
    .update

/-- Every row but MAKE_KEY and the mode switches is one update of the decoder's elements. -/
theorem runRow_blindTo_framer (i : Instr) : BlindTo (withFramer · p) (runRow i) := by
  cases i with
  | makeKey e code => exact makeKey_blindTo_framer p e code
  | modeNext =>
    exact .reading (v := fun s => nextModeIndex s.cfg s.modeIndex) (g := fun i s => .next (switchMode i s))
      (switchMode_blindTo_framer p)
  | modePrev =>
    exact .reading (v := fun s => prevModeIndex s.modeIndex) (g := fun i s => .next (switchMode i s))
      (switchMode_blindTo_framer p)
  | frame | edge | poll | reset | setMods | setKey | send | modeIdentity | modeDigraph | modeWordSubstitute
  | modeWordReverse | modeRandomInterject => exact .refused _
  | _ => exact .update

theorem decodeStep_blindTo_framer (code : Byte) : BlindTo (withFramer · p) (decodeStep code) :=
  .reading (v := fun s => decodeDecodeWord (decodeWordOf s.breakPending s.extendedPending code)) (g := runRow)
    (runRow_blindTo_framer p)

theorem execPoll_blindTo_framer : BlindTo (withFramer · p) execPoll := by
  intro s t h
  obtain ⟨hempty, rfl⟩ | ⟨code, u, hne, ht, hread, hrow, rfl⟩ := execPoll_eq_next.1 h
  · exact execPoll_eq_next.2 (.inl ⟨hempty, rfl⟩)
  · exact execPoll_eq_next.2
      (.inr ⟨code, withFramer u p, hne, ht, hread, decodeStep_blindTo_framer p code _ _ hrow, rfl⟩)

end

/-- A POLL writes none of the producer's elements (R32). -/
theorem withProducer_of_execPoll {s t : State} (h : execPoll s = .next t) : withProducer t s = t := by
  obtain ⟨-, rfl⟩ | ⟨code, u, -, -, -, hrow, rfl⟩ := execPoll_eq_next.1 h
  · rfl
  · obtain ⟨-, hframe⟩ := decodeStep_frame hrow
    rw [hframe]
    rfl

/-- Settles O50: the frame of a run of edges and of a POLL, and the blindness of each agent to the other's elements. -/
theorem agentsShareOnlyTheQueue : Obligations.AgentsShareOnlyTheQueue := by
  refine ⟨fun i s u hi h => ?_, fun s u h => ⟨withProducer_of_execPoll h, fun p => execPoll_blindTo_framer p s u h⟩⟩
  obtain ⟨ds, t, hexec⟩ := exec_eq_edges_of_producer hi
  rw [hexec] at h ⊢
  exact ⟨edges_frame h, fun c => edges_blindTo_consumer c ds t s u h⟩

end Sys2Proof.Proofs
end

section
/-! PROOFS. What a push and a pop answer, from any state whose index is in range (spec/41_framequeue.md R79, R80). -/

namespace Sys2Proof.Proofs

open Sys2Proof Sys2Proof.Machine Sys2Proof.Claims

/-- Settles O14: a full queue drops the code, and one with room stores it at `head`. -/
theorem pushStoresOrDrops : Obligations.PushStoresOrDrops := by
  intro code s hhead
  by_cases hfull : (s.head + 1) % s.cfg.qsize = s.tail
  · rw [if_pos hfull]
    exact push_of_full hfull
  · rw [if_neg hfull]
    exact push_of_room hfull hhead

/-- Settles O16: one clause for the empty queue, one for a written entry at `tail`. -/
theorem popTakesTheOldest : Obligations.PopTakesTheOldest :=
  fun _ => ⟨pop_of_empty, fun _ => pop_of_code⟩

end Sys2Proof.Proofs
end

section
/-! PROOFS. The rows of the opcode map by their scan code: which words reach the catch-all rows, and which rows are prefixes (spec/30_encoding.md R59, R60). -/

namespace Sys2Proof.Proofs

open Sys2Proof Sys2Proof.Machine Sys2Proof.Claims

theorem wordE_and (w v : BitVec 10) : wordE (w &&& v) = (wordE w && wordE v) := BitVec.getLsbD_and

theorem wordS_and (w v : BitVec 10) : wordS (w &&& v) = wordS w &&& wordS v := BitVec.setWidth_and

/-- Every named row fixes the whole scan code (R60). -/
theorem wordS_mask_of_mem_namedRows : ∀ r ∈ namedRows, wordS r.mask = BitVec.allOnes 8 := by decide

/-- A word has the scan code of the named row it matches. -/
theorem wordS_eq_of_matches {r : OpcodeRow} {w : BitVec 10} (hr : r ∈ namedRows) (h : w &&& r.mask = r.mtch) :
    wordS w = wordS r.mtch := by
  rw [← h, wordS_and, wordS_mask_of_mem_namedRows r hr, BitVec.and_allOnes]

/-- Every named row takes a prefix byte, a modifier code, or an extended code with `E = 1` (R60). -/
theorem namedRows_code_classes : ∀ r ∈ namedRows,
    isPrefixCode (wordS r.mtch) = true ∨ isModifierCode (wordS r.mtch) = true ∨
    (wordE r.mtch = true ∧ isExtendedCode (wordS r.mtch) = true) := by decide

/-- No named row takes an ordinary code. -/
theorem not_ordinary_of_matches {r : OpcodeRow} {w : BitVec 10} (hr : r ∈ namedRows) (h : w &&& r.mask = r.mtch) :
    isOrdinaryCode (wordE w) (wordS w) = false := by
  have hcode := wordS_eq_of_matches hr h
  obtain hprefix | hmod | ⟨hE, hext⟩ := namedRows_code_classes r hr
  · simp [isOrdinaryCode, hcode, hprefix]
  · simp [isOrdinaryCode, hcode, hmod]
  · have hwE : wordE w = true := by
      rw [← h, wordE_and, Bool.and_eq_true] at hE
      exact hE.1
    simp [isOrdinaryCode, hcode, hwE, hext]

/-- An ordinary code goes to the catch-all row of its `B` (R60 rows 41, 42). -/
theorem decodeDecodeWord_of_ordinary (b : Bool) {e : Bool} {code : Byte} (h : isOrdinaryCode e code = true) :
    decodeDecodeWord (decodeWordOf b e code) = if b then .breakKey e code else .makeKey e code := by
  obtain ⟨r, hr, hmatch, -⟩ | ⟨-, hcatch⟩ := decodeDecodeWord_cases (decodeWordOf b e code)
  · have hno := not_ordinary_of_matches hr hmatch
    simp [h] at hno
  · simpa using hcatch

/-- The two prefix rows among the instructions (R86, R87). -/
def isPrefixInstr : Instr → Bool
  | .pfxBreak _ _ | .pfxExt _ _ => true
  | _ => false

theorem isPrefixInstr_namedRows : ∀ r ∈ namedRows, ∀ b e, isPrefixInstr (r.instr b e) = isPrefixCode (wordS r.mtch) := by
  decide

/-- A code that is no prefix byte decodes to a terminal row. -/
theorem isPrefixInstr_decodeDecodeWord {w : BitVec 10} (h : isPrefixCode (wordS w) = false) :
    isPrefixInstr (decodeDecodeWord w) = false := by
  obtain ⟨r, hr, hmatch, hdecode⟩ | ⟨-, hdecode⟩ := decodeDecodeWord_cases w
  · rw [hdecode, isPrefixInstr_namedRows r hr, ← wordS_eq_of_matches hr hmatch, h]
  · rw [hdecode]
    split <;> rfl

theorem decodeDecodeWord_F0 (b e : Bool) : decodeDecodeWord (decodeWordOf b e 0xF0) = .pfxBreak b e := by
  cases b <;> cases e <;> rfl

theorem decodeDecodeWord_E0 (b e : Bool) : decodeDecodeWord (decodeWordOf b e 0xE0) = .pfxExt b e := by
  cases b <;> cases e <;> rfl

end Sys2Proof.Proofs
end

section
/-! PROOFS. The decoder: the flags after a code, and the rows that only change them (spec/42_decoder.md R85 to R87, R97 to R99). -/

namespace Sys2Proof.Proofs

open Sys2Proof Sys2Proof.Machine Sys2Proof.Claims

/-- Every terminal row ends by clearing both flags (R85). -/
theorem runRow_ends_with_clearFlags {i : Instr} {s t : State} (hi : isPrefixInstr i = false)
    (h : runRow i s = .next t) : ∃ u, t = clearFlags u := by
  cases i with
  | pfxBreak | pfxExt => cases hi
  | makeKey e code =>
    obtain ⟨u, -, hclear⟩ := andThen_eq_next.1 h
    cases hclear
    exact ⟨u, rfl⟩
  | _ => cases h <;> exact ⟨_, rfl⟩

/-- Settles O20: a prefix byte runs its own row, any other code a row that ends by clearing the flags. -/
theorem terminalCodesClearTheFlags : Obligations.TerminalCodesClearTheFlags := by
  intro code s t h
  refine ⟨fun hF0 hE0 => ?_, ?_, ?_⟩
  · have hterminal : isPrefixInstr (decodeDecodeWord (decodeWordOf s.breakPending s.extendedPending code)) = false :=
      isPrefixInstr_decodeDecodeWord (by simpa [isPrefixCode] using ⟨hF0, hE0⟩)
    obtain ⟨u, rfl⟩ := runRow_ends_with_clearFlags hterminal h
    exact ⟨rfl, rfl⟩
  · rintro rfl
    rw [decodeStep, decodeDecodeWord_F0] at h
    cases h
    exact ⟨rfl, rfl⟩
  · rintro rfl
    rw [decodeStep, decodeDecodeWord_E0] at h
    cases h
    exact ⟨rfl, rfl⟩

/-- A mode's handling of an event already has keycode 0 as a neutral clear (R107). -/
theorem ite_modeEvent (mode : Keycode → Mods → State → Answer State) (k : Keycode) (m : Mods) (s : State) :
    (if k = 0 then .next (emit 0 m s) else modeEvent mode k m s) = modeEvent mode k m s := by
  unfold modeEvent
  split <;> rfl

/-- The active mode's row is the dispatch of the event (R106). -/
theorem exec_modeRow {k : Keycode} {m : Mods} {s : State} {i : Instr} (h : modeRow s.modeIndex.toNat k m = some i) :
    exec i s = modeApply k m s := by
  unfold modeRow at h
  split at h <;> cases h
  all_goals
    rename_i hidx
    simp only [modeApply, hidx]
    exact (ite_modeEvent _ k m s).symm

/-- Settles O29: an ordinary code reaches row 42, which hands its translation to the active mode. -/
theorem ordinaryPressGoesToTheActiveMode : Obligations.OrdinaryPressGoesToTheActiveMode := by
  refine ⟨fun e code h => decodeDecodeWord_of_ordinary false h, fun s e code i hrow => ?_⟩
  rw [exec_modeRow hrow]
  rfl

/-- Settles O19: each prefix byte is its own row, which writes its own flag. -/
theorem prefixBytesSetTheirFlag : Obligations.PrefixBytesSetTheirFlag :=
  fun b e _ => ⟨decodeDecodeWord_F0 b e, rfl, decodeDecodeWord_E0 b e, rfl⟩

/-- Settles O27: the two ignored presses are rows 39 and 40, an ordinary release is row 41, and all three only clear the
flags. -/
theorem ignoredCodesChangeOnlyFlags : Obligations.IgnoredCodesChangeOnlyFlags := by
  refine fun s => ⟨rfl, rfl, rfl, rfl, ?_, fun e code h => decodeDecodeWord_of_ordinary true h, fun _ _ => rfl⟩
  rintro code (rfl | rfl)
  · exact decodeDecodeWord_of_ordinary false rfl
  · exact decodeDecodeWord_of_ordinary false rfl

end Sys2Proof.Proofs
end

section
/-! PROOFS. The keymap lookup inside and beyond the table (spec/43_translator.md R101). -/

namespace Sys2Proof.Proofs

open Sys2Proof Sys2Proof.Machine Sys2Proof.Claims

/-- A code beyond the table is no key (R101). -/
theorem translateCode_of_beyond {c : Config} {s : Byte} (h : c.keymapSize ≤ s.toNat) : translateCode c s = 0 :=
  if_pos h

/-- A code inside the table reads its entry (R101). -/
theorem translateCode_of_inside {c : Config} {s : Byte} (h : s.toNat < c.keymapSize) :
    translateCode c s = c.keymap.getD s.toNat 0 :=
  if_neg (Nat.not_le.2 h)

/-- R7 asks that entry 0 of the table be no key. -/
theorem keymap_entry_zero_of_wf {c : Config} (h : c.wf = true) : c.keymap.getD 0 0 = 0 := by
  simp only [Config.wf, Bool.and_eq_true, decide_eq_true_eq] at h
  obtain ⟨⟨⟨⟨⟨-, hentry⟩, -⟩, -⟩, -⟩, -⟩ := h
  exact hentry

/-- Settles O28: the sentinel `00` reads the entry that R7 fixes, or lies beyond an empty table; `FF` lies beyond every
table of at most 255 entries. -/
theorem translateLooksUpTheKeymap : Obligations.TranslateLooksUpTheKeymap := by
  refine fun c s => ⟨translateCode_of_beyond, translateCode_of_inside, fun hwf => ?_,
    translateCode_of_beyond (s := 0xFF)⟩
  obtain hbeyond | hinside := le_or_gt c.keymapSize (0x00 : Byte).toNat
  · exact translateCode_of_beyond hbeyond
  · exact (translateCode_of_inside hinside).trans (keymap_entry_zero_of_wf hwf)

end Sys2Proof.Proofs
end

section
/-! PROOFS. One event in a mode: forwarding, the Digraph's previous event, the WordSubstitute backspace and the
WordReverse replay (spec/44_mode_engine.md R110, R113, R114, R120, R124). -/

namespace Sys2Proof.Proofs

open Sys2Proof Sys2Proof.Machine Sys2Proof.Claims

/-! ### Forwarding -/

/-- Where the mode forwards the event, the neutral clear of keycode 0 (R107) makes no difference. -/
theorem modeEvent_of_forwards {mode : Keycode → Mods → State → Answer State} {k : Keycode} {m : Mods} {s : State}
    (h : mode k m s = .next (emit k m s)) : modeEvent mode k m s = .next (emit k m s) := by
  by_cases hk : k = 0
  · subst hk
    exact modeEvent_zero mode m s
  · rw [modeEvent_of_ne_zero hk, h]

/-- Settles O33: Identity forwards every event, keycode 0 too. -/
theorem identityForwards : Obligations.IdentityForwards :=
  fun _ _ _ => modeEvent_of_forwards rfl

theorem isSentenceKey_eq_false {c : Config} {k : Keycode} :
    isSentenceKey c k = false ↔ k ≠ c.kcSpace ∧ k ≠ c.kcEnter ∧ k ≠ c.kcPeriod ∧ k ≠ c.kcComma := by
  simp [isSentenceKey, and_assoc]

/-- A key that is no boundary key passes with no draw (R124). -/
theorem randomInterject_of_not_sentenceKey {k : Keycode} {m : Mods} {s : State} (h : isSentenceKey s.cfg k = false) :
    randomInterject k m s = .next (emit k m s) := by
  simp [randomInterject, h]

/-- Settles O46: a key that is none of the four is no boundary key. -/
theorem randomInterjectForwardsOthers : Obligations.RandomInterjectForwardsOthers :=
  fun _ _ _ hspace henter hperiod hcomma =>
    modeEvent_of_forwards (randomInterject_of_not_sentenceKey
      (isSentenceKey_eq_false.2 ⟨hspace, henter, hperiod, hcomma⟩))

/-! ### Digraph and WordSubstitute -/

/-- Settles O36: both fields are written from the raw event before anything is sent, and sending leaves them. -/
theorem digraphChainsOnRawInput : Obligations.DigraphChainsOnRawInput :=
  fun _ _ _ hk => ⟨_, modeEvent_of_ne_zero hk, emitAll_dgPrevKey _ _, emitAll_dgPrevMods _ _⟩

/-- A backspace takes one off the count and is forwarded (R114). -/
theorem wordSubstitute_backspace (m : Mods) (s : State) :
    wordSubstitute s.cfg.kcBackspace m s = .next { emit s.cfg.kcBackspace m s with wsCount := s.wsCount - 1 } :=
  if_pos rfl

/-- Settles O37: KC_BACKSPACE, being a key, reaches the mode. -/
theorem wordSubstituteBackspace : Obligations.WordSubstituteBackspace :=
  fun s m hk => (modeEvent_of_ne_zero hk).trans (wordSubstitute_backspace m s)

/-! ### The WordReverse replay -/

theorem isAlnum_eq_false {c : Config} {k : Keycode} :
    isAlnum c k = false ↔ k.toNat < c.kcAlnumLo.toNat ∨ c.kcAlnumHi.toNat < k.toNat := by
  rw [isAlnum, Bool.and_eq_false_iff, decide_eq_false_iff_not, decide_eq_false_iff_not, Nat.not_le, Nat.not_le]

/-- The letter replayed at position `j` is the one as far from the end, with the shift bits of letter `j` (R120). -/
theorem replayKeys_eq_map_range (l : ModLayout) (xs : List WrEntry) (d : WrEntry) :
    replayKeys l xs = (List.range xs.length).map fun j =>
      ((xs.getD (xs.length - 1 - j) d).key,
       ((xs.getD j d).mods &&& shiftMask l) ||| ((xs.getD (xs.length - 1 - j) d).mods &&& ~~~(shiftMask l))) := by
  refine List.ext_getElem (by simp [replayKeys]) fun j _ hj => ?_
  have hpos : j < xs.length := by simpa using hj
  have hmirror : xs.length - 1 - j < xs.length := by omega
  simp [replayKeys, List.getElem_reverse, hpos, hmirror]

/-- A boundary key erases the letters that the buffer answers, replays them and is itself sent last (R120). -/
theorem wordReverse_boundary {k : Keycode} {m : Mods} {s : State} {xs : List WrEntry} (hk : k ≠ s.cfg.kcBackspace)
    (hboundary : isAlnum s.cfg k = false) (hread : bufReadFrom s 0 s.wrCount = .next xs) :
    wordReverse k m s = .next { emitAll (List.replicate s.wrCount (s.cfg.kcBackspace, 0) ++ replayKeys s.cfg.mods xs ++
      [(k, m)]) s with wrCount := 0 } := by
  simp only [wordReverse, if_neg hk, hboundary, Bool.false_eq_true, if_false, hread, andThen_next]
  rfl

/-- Settles O42: the buffer answers its `wrCount` letters, and their replay is given position by position. -/
theorem wordReverseBoundary : Obligations.WordReverseBoundary := by
  intro s k m xs hk hback hrange hcount hcap hbuf shift letter
  have hread : bufReadFrom s 0 s.wrCount = .next xs :=
    bufReadFrom_eq_next.2 ⟨hcount.symm, fun j hj => by
      rw [Nat.zero_add]
      exact ⟨hj.trans_le hcap, hbuf j (hcount ▸ hj)⟩⟩
  have hmode := wordReverse_boundary (m := m) hback (isAlnum_eq_false.2 hrange) hread
  rw [hcount, replayKeys_eq_map_range _ _ { key := 0, mods := 0 }] at hmode
  exact (modeEvent_of_ne_zero hk).trans hmode

end Sys2Proof.Proofs
end

section
/-! PROOFS. The producer in a state of R33: an edge, and so a run of edges, completes and keeps the invariants
(spec/40_bitframer.md R69 to R75, spec/10_state.md R33). -/

namespace Sys2Proof.Proofs

open Sys2Proof Sys2Proof.Machine Sys2Proof.Claims

/-- R33 item 4: bit `j` of the register is set only once edge `j + 1` has been taken. -/
def PartialFrame (bc : Nat) (sr : Byte) : Prop := ∀ j, j < 8 → sr.getLsbD j = true → j + 2 ≤ bc

theorem partialFrame_zero (bc : Nat) : PartialFrame bc 0 := fun j _ h => by simp at h

/-- The level sampled at edge index `bc` goes into bit `bc - 1`, which the next edge index allows (R73). -/
theorem PartialFrame.sampleBit {bc : Nat} {sr : Byte} (h : PartialFrame bc sr) (d : Bool) :
    PartialFrame (bc + 1) (sampleBit bc sr d) := by
  intro j hj hset
  rw [getLsbD_sampleBit bc sr d j hj] at hset
  by_cases hbit : j + 1 = bc
  · omega
  · rw [if_neg hbit] at hset
    exact (h j hj hset).trans bc.le_succ

/-- The frame an edge finds is the one in progress or a new one; both meet R33 items 3 and 4 (R70, R71). -/
theorem frameAtEdge_partial {now bc : Nat} {sr : Byte} {s : State} (hI : Invariants s)
    (h : frameAtEdge now s = (bc, sr)) : bc < s.cfg.frameEdges ∧ PartialFrame bc sr := by
  unfold frameAtEdge at h
  split at h <;> cases h
  · exact ⟨Nat.zero_lt_of_lt hI.bitCountInRange, partialFrame_zero 0⟩
  · exact ⟨hI.bitCountInRange, hI.shiftRegisterPartial⟩

/-- The framer's elements may be replaced by any that meet their own invariants. -/
theorem inv_withFrame {s : State} {bc last : Nat} {sr : Byte} (hI : Invariants s)
    (hbc : bc < s.cfg.frameEdges) (hsr : PartialFrame bc sr) (hlast : last < 2 ^ s.cfg.timeWidth) :
    Invariants { s with lastEdgeTime := last, bitCount := bc, shiftRegister := sr } :=
  { hI with bitCountInRange := hbc, shiftRegisterPartial := hsr, lastEdgeTimeInRange := hlast }

theorem push_cfg {code : Byte} {s t : State} {ok : Bool} (h : push code s = .next (ok, t)) : t.cfg = s.cfg := by
  obtain ⟨-, -, rfl⟩ | ⟨-, -, -, rfl⟩ := push_eq_next.1 h <;> rfl

theorem push_completes (code : Byte) {s : State} (hhead : s.head < s.cfg.qsize) :
    ∃ ok t, push code s = .next (ok, t) := by
  by_cases hfull : (s.head + 1) % s.cfg.qsize = s.tail
  · exact ⟨_, _, push_of_full hfull⟩
  · exact ⟨_, _, push_of_room hfull hhead⟩

theorem inv_of_edge {d : Bool} {t : Nat} {s u : State} (hI : Invariants s) (h : edge d t s = .next u) :
    Invariants u := by
  obtain ⟨bc, sr, hframe, hcase⟩ := edge_eq_next h
  obtain ⟨hbc, hsr⟩ := frameAtEdge_partial hI hframe
  have hnow : t % 2 ^ s.cfg.timeWidth < 2 ^ s.cfg.timeWidth := Nat.mod_lt _ (Nat.two_pow_pos _)
  obtain ⟨hmid, rfl⟩ | ⟨-, ok, v, hpush, rfl⟩ := hcase
  · exact inv_withFrame hI (by omega) (hsr.sampleBit d) hnow
  · have hV := inv_of_push hI hpush
    exact inv_withFrame hV (Nat.zero_lt_of_lt hV.bitCountInRange) (partialFrame_zero 0) (push_cfg hpush ▸ hnow)

theorem finishEdge_completes (bc : Nat) (sr : Byte) {s : State} (hhead : s.head < s.cfg.qsize) :
    ∃ u, finishEdge bc sr s = .next u := by
  unfold finishEdge
  split
  · obtain ⟨ok, v, hpush⟩ := push_completes sr hhead
    exact ⟨_, andThen_eq_next.2 ⟨(ok, v), hpush, rfl⟩⟩
  · exact ⟨_, rfl⟩

theorem edge_completes (d : Bool) (t : Nat) {s : State} (hI : Invariants s) : ∃ u, edge d t s = .next u :=
  finishEdge_completes _ _ (s := { s with lastEdgeTime := t % 2 ^ s.cfg.timeWidth }) hI.headInRange

theorem inv_of_edges {ds : List Bool} {t : Nat} {s u : State} (hI : Invariants s) (h : edges ds t s = .next u) :
    Invariants u := by
  induction ds generalizing s with
  | nil => cases h; exact hI
  | cons d ds ih =>
    obtain ⟨v, hedge, hrest⟩ := andThen_eq_next.1 h
    exact ih (inv_of_edge hI hedge) hrest

theorem edges_completes (ds : List Bool) (t : Nat) {s : State} (hI : Invariants s) :
    ∃ u, edges ds t s = .next u := by
  induction ds generalizing s with
  | nil => exact ⟨s, rfl⟩
  | cons d ds ih =>
    obtain ⟨v, hedge⟩ := edge_completes d t hI
    obtain ⟨u, hrest⟩ := ih (inv_of_edge hI hedge)
    exact ⟨u, andThen_eq_next.2 ⟨v, hedge, hrest⟩⟩

end Sys2Proof.Proofs
end

section
/-! PROOFS. The consumer in a state of R33: every mode and every row of the opcode map keeps the invariants
(spec/10_state.md R33, spec/42_decoder.md, spec/44_mode_engine.md). -/

namespace Sys2Proof.Proofs

open Sys2Proof Sys2Proof.Machine Sys2Proof.Claims

theorem wfModel_iff {c : Config} : c.wfModel = true ↔
    1 ≤ c.frameEdges ∧ (1 ≤ c.numModes ∧ c.numModes ≤ 5) ∧ 0 < c.dictSize ∧ Config.modsOk c.mods = true := by
  simp [Config.wfModel, Config.dictSize, and_assoc]

/-! ### The modes -/

/-- What goes to the sink is in no invariant. -/
theorem inv_sinkAll {s : State} (hI : Invariants s) (ops : List SinkOp) : Invariants (sinkAll ops s) :=
  { hI with }

theorem inv_of_digraph {k : Keycode} {m : Mods} {s t : State} (hI : Invariants s) (hm : m &&& 0xFF00 = 0)
    (h : digraph k m s = .next t) : Invariants t := by
  cases h
  exact { hI with dgPrevModsHigh := hm }

theorem inv_of_wordSubstitute {k : Keycode} {m : Mods} {s t : State} (hI : Invariants s)
    (h : wordSubstitute k m s = .next t) : Invariants t := by
  have hcount := hI.wsCountInRange
  simp only [wordSubstitute] at h
  split at h
  · cases h
    exact { hI with wsCountInRange := (Nat.sub_le _ _).trans hcount }
  · split at h
    · split at h <;> cases h <;> exact { hI with wsCountInRange := Nat.min_le_right _ _ }
    · cases h
      exact { hI with wsCountInRange := Nat.zero_le _ }

/-- A letter appended at index `wr_count` (R118). -/
theorem inv_appendLetter {s : State} (hI : Invariants s) (hroom : s.wrCount < s.cfg.wrCap) (x : WrEntry) :
    Invariants { s with wrBuf := Memory.write s.wrBuf s.wrCount x, wrCount := s.wrCount + 1 } :=
  { hI with
    wrCountInRange := hroom
    wrBufWritten := fun i hi => by
      rw [Memory.read_write]
      split
      · rfl
      · exact hI.wrBufWritten i (by dsimp only at hi; omega)
    wrBufCanonical := Memory.write_wf _ _ _ hI.wrBufCanonical
    wrBufInRange := Memory.write_below _ _ _ _ hroom hI.wrBufInRange }

/-- Taking letters off the end leaves the others written (R117, R120). -/
theorem inv_dropLetters {s : State} (hI : Invariants s) {n : Nat} (hn : n ≤ s.wrCount) :
    Invariants { s with wrCount := n } :=
  { hI with
    wrCountInRange := hn.trans hI.wrCountInRange
    wrBufWritten := fun i hi => hI.wrBufWritten i (hi.trans_le hn) }

theorem inv_of_wordReverse {k : Keycode} {m : Mods} {s t : State} (hI : Invariants s)
    (h : wordReverse k m s = .next t) : Invariants t := by
  simp only [wordReverse] at h
  split at h
  · cases h
    exact inv_sinkAll (inv_dropLetters hI (Nat.sub_le _ _)) _
  · split at h
    · split at h
      · obtain ⟨s1, hwrite, hemit⟩ := andThen_eq_next.1 h
        obtain ⟨hroom, rfl⟩ := bufWrite_eq_next.1 hwrite
        cases hemit
        exact inv_sinkAll (inv_appendLetter hI hroom _) _
      · cases h
        exact inv_sinkAll hI _
    · obtain ⟨xs, -, hemit⟩ := andThen_eq_next.1 h
      cases hemit
      exact inv_sinkAll (inv_dropLetters hI (Nat.zero_le _)) _

theorem inv_of_draw {r : Nat} {s t : State} (hI : Invariants s) (h : draw s = .next (r, t)) : Invariants t := by
  obtain ⟨-, ⟨-, ht⟩ | ⟨-, ht⟩⟩ := draw_eq_next h <;> rw [ht] <;> exact { hI with }

theorem inv_of_randomInterject {k : Keycode} {m : Mods} {s t : State} (hI : Invariants s)
    (h : randomInterject k m s = .next t) : Invariants t := by
  simp only [randomInterject] at h
  split at h
  · obtain ⟨⟨r, s1⟩, hdraw, hemit⟩ := andThen_eq_next.1 h
    cases hemit
    exact inv_sinkAll (inv_of_draw hI hdraw) _
  · cases h
    exact inv_sinkAll hI _

/-- The active mode keeps the invariants when the event's mask has its high byte clear, as the live mask has. -/
theorem inv_of_modeApply {k : Keycode} {m : Mods} {s t : State} (hI : Invariants s) (hm : m &&& 0xFF00 = 0)
    (h : modeApply k m s = .next t) : Invariants t := by
  rcases modeApply_cases k m s with ⟨-, e⟩ | ⟨-, -, e⟩ | ⟨-, -, e⟩ | ⟨-, -, e⟩ | ⟨-, -, e⟩ | ⟨-, -, e⟩ | ⟨-, -, e⟩ <;>
    rw [e] at h
  · cases h; exact inv_sinkAll hI _
  · cases h; exact inv_sinkAll hI _
  · exact inv_of_digraph hI hm h
  · exact inv_of_wordSubstitute hI h
  · exact inv_of_wordReverse hI h
  · exact inv_of_randomInterject hI h
  · cases h

/-! ### The rows -/

theorem inv_clearFlags {s : State} (hI : Invariants s) : Invariants (clearFlags s) := { hI with }

/-- The bits of the eight modifier keys (R61). -/
def modifierBits (l : ModLayout) : List Mods := [l.lctrl, l.lshift, l.lalt, l.lgui, l.rctrl, l.rshift, l.ralt, l.rgui]

/-- Every modifier's bit is among bits 7:0 (R61). -/
theorem modifierBit_high {l : ModLayout} (hl : Config.modsOk l = true) {bit : Mods}
    (hbit : bit ∈ modifierBits l) : bit &&& 0xFF00 = 0 := by
  have hlow : ∀ i ∈ List.range 8, 1#16 <<< i &&& 0xFF00 = 0 := by decide
  simp only [Config.modsOk, Bool.and_eq_true, List.all_eq_true, List.any_eq_true, beq_iff_eq] at hl
  obtain ⟨i, hi, rfl⟩ := hl.1 bit hbit
  exact hlow i hi

theorem inv_pressModifier {s : State} (hI : Invariants s) {bit : Mods}
    (hbit : bit ∈ modifierBits s.cfg.mods) : Invariants (pressModifier bit s) := by
  obtain ⟨-, -, -, hmods⟩ := wfModel_iff.1 hI.paramsModel
  refine { hI with modifierMaskHigh := ?_ }
  show (s.modifierMask ||| bit) &&& 0xFF00 = 0
  rw [BitVec.and_or_distrib_right, hI.modifierMaskHigh, modifierBit_high hmods hbit]
  rfl

theorem inv_releaseModifier {s : State} (hI : Invariants s) (bit : Mods) :
    Invariants (releaseModifier bit s) := by
  refine { hI with modifierMaskHigh := ?_ }
  show s.modifierMask &&& ~~~bit &&& 0xFF00 = 0
  rw [BitVec.and_assoc, BitVec.and_comm (~~~bit), ← BitVec.and_assoc, hI.modifierMaskHigh]
  exact BitVec.zero_and

theorem nextModeIndex_lt {c : Config} (h : 1 ≤ c.numModes) (old : BitVec 3) :
    (nextModeIndex c old).toNat < c.numModes := by
  have hmod := Nat.mod_le (min (old.toNat + 1) (c.numModes - 1)) (2 ^ 3)
  rw [nextModeIndex, BitVec.toNat_ofNat]
  omega

theorem prevModeIndex_le (old : BitVec 3) : (prevModeIndex old).toNat ≤ old.toNat := by
  have hmod := Nat.mod_le (old.toNat - 1) (2 ^ 3)
  rw [prevModeIndex, BitVec.toNat_ofNat]
  omega

theorem inv_clearContexts {s : State} (hI : Invariants s) : Invariants (clearContexts s) :=
  { inv_dropLetters hI (Nat.zero_le _) with dgPrevModsHigh := BitVec.zero_and, wsCountInRange := Nat.zero_le _ }

theorem inv_switchMode {s : State} (hI : Invariants s) {new : BitVec 3} (hnew : new.toNat < s.cfg.numModes) :
    Invariants (switchMode new s) := by
  rw [switchMode_eq_ite]
  split
  · exact { inv_clearContexts hI with modeIndexInRange := hnew }
  · exact { hI with modeIndexInRange := hnew }

theorem inv_of_makeKey {e : Bool} {code : Byte} {s t : State} (hI : Invariants s)
    (h : execMakeKey e code s = .next t) : Invariants t := by
  obtain ⟨u, hmode, hclear⟩ := andThen_eq_next.1 h
  cases hclear
  exact inv_clearFlags (inv_of_modeApply hI hI.modifierMaskHigh hmode)

theorem inv_of_runRow {i : Instr} {s t : State} (hI : Invariants s) (h : runRow i s = .next t) : Invariants t := by
  cases i with
  | makeKey e code => exact inv_of_makeKey (e := e) (code := code) hI h
  | modeNext =>
    cases h
    obtain ⟨-, ⟨hmodes, -⟩, -⟩ := wfModel_iff.1 hI.paramsModel
    exact inv_switchMode hI (nextModeIndex_lt hmodes _)
  | modePrev =>
    cases h
    exact inv_switchMode hI ((prevModeIndex_le _).trans_lt hI.modeIndexInRange)
  | makeLShift | makeRShift | makeLAlt | makeRAlt | makeLCtrl | makeRCtrl | makeLGui | makeRGui =>
    cases h
    exact inv_pressModifier hI (by simp [modifierBits])
  | breakLShift | breakRShift | breakLAlt | breakRAlt | breakLCtrl | breakRCtrl | breakLGui | breakRGui =>
    cases h
    exact inv_releaseModifier hI _
  | frame | edge | poll | reset | setMods | setKey | send | modeIdentity | modeDigraph | modeWordSubstitute
  | modeWordReverse | modeRandomInterject => cases h
  | _ =>
    cases h
    exact { hI with }

end Sys2Proof.Proofs
end

section
/-! PROOFS. The environment's transactions in a state of R33: each completes, keeps the invariants, and leaves what the
environment holds but for the draws it takes (spec/60_exceptions.md R125, R139). -/

namespace Sys2Proof.Proofs

open Sys2Proof Sys2Proof.Machine Sys2Proof.Claims

/-! ### POLL -/

theorem inv_of_execPoll {s t : State} (hI : Invariants s) (h : execPoll s = .next t) : Invariants t := by
  obtain ⟨-, rfl⟩ | ⟨code, u, hne, ht, hread, hrow, rfl⟩ := execPoll_eq_next.1 h
  · exact { hI with }
  · have hU := inv_of_runRow (inv_of_pop hI (pop_of_code hne ht hread)) hrow
    exact { hU with }

/-- The entry at `tail` of a queue that is not empty was written (R33 item 2). -/
theorem tail_entry_written {s : State} (hI : Invariants s) (hne : s.head ≠ s.tail) :
    ∃ code, Memory.read s.buf s.tail = some code := by
  have hcount := queueCount_pop hI.headInRange hI.tailInRange hne
  have hfirst := hI.unreadWritten 0 (by omega)
  rw [unreadAt, Nat.add_zero, Nat.mod_eq_of_lt hI.tailInRange] at hfirst
  exact Option.isSome_iff_exists.1 hfirst

theorem makeKey_completes (e : Bool) (code : Byte) {s : State} (hI : Invariants s)
    (hdraws : ∀ r ∈ s.draws, r < s.cfg.dictSize) : ∃ t, execMakeKey e code s = .next t := by
  obtain ⟨-, ⟨-, hmodes⟩, hdict, -⟩ := wfModel_iff.1 hI.paramsModel
  have hindex := hI.modeIndexInRange
  obtain ⟨u, hmode⟩ := modeApply_completes (k := translateCode s.cfg code) (m := s.modifierMask) (by omega)
    hI.wrCountInRange hI.wrBufWritten hdraws hdict
  exact ⟨_, andThen_eq_next.2 ⟨u, hmode, rfl⟩⟩

/-- The rows of the opcode map among the instructions (R60). -/
def isDecodeRow : Instr → Bool
  | .frame _ _ | .edge _ _ | .poll | .reset | .setMods _ | .setKey _ | .send
  | .modeIdentity _ _ | .modeDigraph _ _ | .modeWordSubstitute _ _ | .modeWordReverse _ _
  | .modeRandomInterject _ _ => false
  | _ => true

theorem isDecodeRow_namedRows : ∀ r ∈ namedRows, ∀ b e, isDecodeRow (r.instr b e) = true := by decide

theorem isDecodeRow_decodeDecodeWord (w : BitVec 10) : isDecodeRow (decodeDecodeWord w) = true := by
  obtain ⟨r, hr, -, hdecode⟩ | ⟨-, hdecode⟩ := decodeDecodeWord_cases w
  · rw [hdecode, isDecodeRow_namedRows r hr]
  · rw [hdecode]
    split <;> rfl

/-- MAKE_KEY runs a mode; every other row is one update, with no way to stop. -/
theorem runRow_completes {i : Instr} {s : State} (hi : isDecodeRow i = true) (hI : Invariants s)
    (hdraws : ∀ r ∈ s.draws, r < s.cfg.dictSize) : ∃ t, runRow i s = .next t := by
  cases i with
  | makeKey e code => exact makeKey_completes e code hI hdraws
  | frame | edge | poll | reset | setMods | setKey | send | modeIdentity | modeDigraph | modeWordSubstitute
  | modeWordReverse | modeRandomInterject => cases hi
  | _ => exact ⟨_, rfl⟩

theorem execPoll_completes {s : State} (hI : Invariants s) (hdraws : ∀ r ∈ s.draws, r < s.cfg.dictSize) :
    ∃ t, execPoll s = .next t := by
  by_cases hempty : s.head = s.tail
  · exact ⟨_, execPoll_eq_next.2 (.inl ⟨hempty, rfl⟩)⟩
  · obtain ⟨code, hread⟩ := tail_entry_written hI hempty
    have hpop := inv_of_pop hI (pop_of_code hempty hI.tailInRange hread)
    obtain ⟨u, hrow⟩ := runRow_completes (isDecodeRow_decodeDecodeWord _) hpop hdraws
    exact ⟨_, execPoll_eq_next.2 (.inr ⟨code, u, hempty, hI.tailInRange, hread, hrow, rfl⟩)⟩

/-! ### RESET -/

/-- Zero registers meet the invariants with any arrays: the queue is empty and no letter is buffered (R140). -/
theorem inv_of_execReset {s t : State} (hI : Invariants s) (h : execReset s = .next t) : Invariants t := by
  cases h
  exact { hI with
    headInRange := Nat.zero_lt_of_lt hI.headInRange
    tailInRange := Nat.zero_lt_of_lt hI.headInRange
    unreadWritten := fun i hi => absurd hi (by simp [queueCount])
    bitCountInRange := Nat.zero_lt_of_lt hI.bitCountInRange
    shiftRegisterPartial := partialFrame_zero 0
    lastEdgeTimeInRange := Nat.two_pow_pos _
    modifierMaskHigh := BitVec.zero_and
    dgPrevModsHigh := BitVec.zero_and
    modeIndexInRange := Nat.zero_lt_of_lt hI.modeIndexInRange
    wsCountInRange := Nat.zero_le _
    wrCountInRange := Nat.zero_le _
    wrBufWritten := fun i hi => absurd hi (Nat.not_lt_zero i) }

/-! ### The environment's transactions -/

/-- The instructions of the words an environment may present (R139, R68). -/
def IsTransaction (i : Instr) : Prop :=
  ((∃ d t, i = .edge d t) ∨ (∃ levels t, i = .frame levels t)) ∨ i = .poll ∨ i = .reset

theorem decodeTransaction_isTransaction {v : Nat} {i : Instr} (h : decodeTransaction v = .ok i) : IsTransaction i := by
  unfold decodeTransaction at h
  split at h
  · cases h
    exact .inl (.inl ⟨_, _, rfl⟩)
  · split at h <;> cases h
    exact .inr (.inl rfl)
  · split at h <;> cases h
    exact .inr (.inr rfl)
  · cases h

/-- A word that the environment may present is one of its transactions. -/
theorem decode_environmentWord {w : InWord} (h : environmentWord w = true) :
    ∃ i, decode w = .ok i ∧ IsTransaction i := by
  obtain ⟨fmt, bits⟩ := w
  cases fmt with
  | frame => exact ⟨_, rfl, .inl (.inr ⟨_, _, rfl⟩)⟩
  | transaction =>
    change (decodeTransaction bits).isOk = true at h
    change ∃ i, decodeTransaction bits = .ok i ∧ IsTransaction i
    cases hdecode : decodeTransaction bits with
    | ok i => exact ⟨i, rfl, decodeTransaction_isTransaction hdecode⟩
    | error e => simp [hdecode, Except.isOk, Except.toBool] at h
  | decodeWord | sinkOp | modeIndex => cases h

theorem inv_of_transaction {i : Instr} {s t : State} (hi : IsTransaction i) (hI : Invariants s)
    (h : exec i s = .next t) : Invariants t := by
  obtain hproducer | rfl | rfl := hi
  · obtain ⟨ds, now, hexec⟩ := exec_eq_edges_of_producer hproducer
    rw [hexec] at h
    exact inv_of_edges hI h
  · exact inv_of_execPoll hI h
  · exact inv_of_execReset hI h

theorem transaction_completes {i : Instr} {s : State} (hi : IsTransaction i) (hI : Invariants s)
    (hdraws : ∀ r ∈ s.draws, r < s.cfg.dictSize) : ∃ t, exec i s = .next t := by
  obtain hproducer | rfl | rfl := hi
  · obtain ⟨ds, now, hexec⟩ := exec_eq_edges_of_producer hproducer
    rw [hexec]
    exact edges_completes ds now hI
  · exact execPoll_completes hI hdraws
  · exact ⟨_, rfl⟩

/-- A transaction leaves the parameters and the presented words, and takes draws from the front only (R30, R139). -/
theorem transaction_environment {i : Instr} {s t : State} (hi : IsTransaction i) (h : exec i s = .next t) :
    t.cfg = s.cfg ∧ t.presented = s.presented ∧ t.draws <:+ s.draws := by
  obtain hproducer | rfl | rfl := hi
  · obtain ⟨ds, now, hexec⟩ := exec_eq_edges_of_producer hproducer
    rw [hexec] at h
    rw [edges_frame h]
    exact ⟨rfl, rfl, List.suffix_rfl⟩
  · obtain ⟨-, rfl⟩ | ⟨code, u, -, -, -, hrow, rfl⟩ := execPoll_eq_next.1 h
    · exact ⟨rfl, rfl, List.suffix_rfl⟩
    · obtain ⟨hdraws, hframe⟩ := decodeStep_frame hrow
      exact ⟨(congrArg State.cfg hframe :), (congrArg State.presented hframe :), hdraws⟩
  · cases h
    exact ⟨rfl, rfl, List.suffix_rfl⟩

/-! ### One step -/

theorem step_of_idle {s : State} (h : s.presented = []) : step s = .next s := by
  simp [step, fetch, h]

theorem step_of_presented {s : State} {w : InWord} {rest : List InWord} {i : Instr} (h : s.presented = w :: rest)
    (hdecode : decode w = .ok i) : step s = exec i { s with presented := rest } := by
  simp [step, fetch, h, hdecode]

/-- Settles O57: an idle block stays as it is, and a presented word is a transaction, which completes, keeps the
invariants, and leaves the environment its duties. -/
theorem blockNeverStops : Obligations.BlockNeverStops := by
  intro s hI hE
  cases hpresented : s.presented with
  | nil => exact ⟨s, step_of_idle hpresented, hI, hE⟩
  | cons w rest =>
    obtain ⟨hw, hrest⟩ := List.forall_mem_cons.1 (hpresented ▸ hE.words)
    obtain ⟨i, hdecode, hi⟩ := decode_environmentWord hw
    have hI1 : Invariants { s with presented := rest } := { hI with }
    obtain ⟨t, hexec⟩ := transaction_completes hi hI1 hE.drawsInRange
    obtain ⟨hcfg, hkept, hdraws⟩ := transaction_environment hi hexec
    refine ⟨t, (step_of_presented hpresented hdecode).trans hexec, inv_of_transaction hi hI1 hexec, ?_, ?_⟩
    · rw [hkept]
      exact hrest
    · rw [hcfg]
      exact fun r hr => hE.drawsInRange r (hdraws.subset hr)

end Sys2Proof.Proofs
end

section
/-! PROOFS. The decoder against the encoder, format by format: a word decodes to an instruction exactly when it is that
instruction's encoding (spec/30_encoding.md R56, R59, R60, R63 to R65). -/

namespace Sys2Proof.Proofs

open Sys2Proof Sys2Proof.Machine Sys2Proof.Claims

/-! ### The opcode map (R60) -/

/-- The fields of a decode word make it up (R59). -/
theorem decodeWordOf_fields (w : BitVec 10) : decodeWordOf (wordB w) (wordE w) (wordS w) = w := by
  revert w
  decide +kernel

theorem decodeWordIn_inj {b e b' e' : Bool} {s s' : Byte} (h : decodeWordIn b e s = decodeWordIn b' e' s') :
    b = b' ∧ e = e' ∧ s = s' := by
  have hw : decodeWordOf b e s = decodeWordOf b' e' s' := BitVec.eq_of_toNat_eq (congrArg InWord.bits h :)
  exact ⟨by simpa using congrArg wordB hw, by simpa using congrArg wordE hw, by simpa using congrArg wordS hw⟩

/-- A word of the decode format goes through the opcode map. -/
theorem decode_decodeWordIn (b e : Bool) (s : Byte) :
    decode (decodeWordIn b e s) = .ok (decodeDecodeWord (decodeWordOf b e s)) := by
  simp [decode, decodeWordIn, (decodeWordOf b e s).isLt]

/-- Each named row of the map is the row of R60's table by which its instruction is encoded. -/
theorem encode_namedRows : ∀ r ∈ namedRows, ∀ b e, decodeWordOf b e (wordS r.mtch) &&& r.mask = r.mtch →
    encode (r.instr b e) = decodeWordIn b e (wordS r.mtch) := by
  decide

theorem wellFormed_namedRows : ∀ r ∈ namedRows, ∀ b e, (r.instr b e).wellFormed = true := by
  decide

/-- The named rows take every code that is not ordinary: no such word is left to the catch-all rows. -/
theorem ordinary_or_namedRow (w : BitVec 10) :
    isOrdinaryCode (wordE w) (wordS w) = true ∨ ∃ r ∈ namedRows, w &&& r.mask = r.mtch := by
  revert w
  decide +kernel

/-- What a decode word decodes to is encoded by that word. -/
theorem encode_decodeDecodeWord (w : BitVec 10) :
    encode (decodeDecodeWord w) = decodeWordIn (wordB w) (wordE w) (wordS w) := by
  obtain ⟨r, hr, hmatch, hdecode⟩ | ⟨-, hdecode⟩ := decodeDecodeWord_cases w
  · rw [hdecode, wordS_eq_of_matches hr hmatch]
    refine encode_namedRows r hr _ _ ?_
    rwa [← wordS_eq_of_matches hr hmatch, decodeWordOf_fields]
  · rw [hdecode]
    cases wordB w <;> rfl

theorem encode_decode_decodeWordOf (b e : Bool) (code : Byte) :
    encode (decodeDecodeWord (decodeWordOf b e code)) = decodeWordIn b e code := by
  rw [encode_decodeDecodeWord, wordB_decodeWordOf, wordE_decodeWordOf, wordS_decodeWordOf]

theorem wellFormed_decodeDecodeWord (w : BitVec 10) : (decodeDecodeWord w).wellFormed = true := by
  obtain ⟨r, hr, -, hdecode⟩ | ⟨hnone, hdecode⟩ := decodeDecodeWord_cases w
  · rw [hdecode]
    exact wellFormed_namedRows r hr _ _
  · obtain hordinary | ⟨r, hr, hmatch⟩ := ordinary_or_namedRow w
    · rw [hdecode]
      split <;> exact hordinary
    · exact absurd hmatch (hnone r hr)

/-- Two rows that ask for different values of a bit both fix have no word in common. -/
theorem not_both_match {r r' : OpcodeRow} (h : r.mtch &&& r'.mask ≠ r'.mtch &&& r.mask) (w : BitVec 10) :
    ¬ (w &&& r.mask = r.mtch ∧ w &&& r'.mask = r'.mtch) := by
  rintro ⟨hr, hr'⟩
  refine h ?_
  rw [← hr, ← hr', BitVec.and_assoc, BitVec.and_assoc, BitVec.and_comm r.mask]

theorem namedRows_differ_on_common_bits :
    namedRows.Pairwise fun r r' => r.mtch &&& r'.mask ≠ r'.mtch &&& r.mask := by
  decide

/-- Settles O3: the rows differ pairwise on bits they both fix, and the catch-alls are the decoder's last case. -/
theorem opcodeMapRowsAreDisjoint : Obligations.OpcodeMapRowsAreDisjoint := by
  refine ⟨rfl, namedRows_differ_on_common_bits.imp fun h => not_both_match h, fun b e s hnone => ?_⟩
  obtain ⟨r, hr, hmatch, -⟩ | ⟨-, hcatch⟩ := decodeDecodeWord_cases (decodeWordOf b e s)
  · exact absurd hmatch (hnone r hr)
  · simpa using hcatch

/-! ### The other formats -/

theorem toNat_beq_one_of_lt_two {n : Nat} (h : n < 2) : (n == 1).toNat = n := by
  obtain rfl | rfl : n = 0 ∨ n = 1 := by omega
  · rfl
  · rfl

/-- A transaction word is EDGE with its operands, POLL or RESET (R65). -/
theorem decodeTransaction_eq_ok {v : Nat} {i : Instr} : decodeTransaction v = .ok i ↔
    (∃ d t, i = .edge d t ∧ v = d.toNat * 2 ^ 2 + t * 2 ^ 3) ∨ (i = .poll ∧ v = 1) ∨ (i = .reset ∧ v = 2) := by
  constructor
  · intro h
    unfold decodeTransaction at h
    split at h
    · rename_i htag
      cases h
      refine .inl ⟨_, _, rfl, ?_⟩
      rw [toNat_beq_one_of_lt_two (by rw [field]; omega)]
      simp only [field] at htag ⊢
      omega
    · split at h <;> cases h
      exact .inr (.inl ⟨rfl, ‹_›⟩)
    · split at h <;> cases h
      exact .inr (.inr ⟨rfl, ‹_›⟩)
    · cases h
  · rintro (⟨d, t, rfl, rfl⟩ | ⟨rfl, rfl⟩ | ⟨rfl, rfl⟩)
    · have htag : field (d.toNat * 2 ^ 2 + t * 2 ^ 3) 0 2 = 0 := by rw [field]; omega
      have hd : field (d.toNat * 2 ^ 2 + t * 2 ^ 3) 2 1 = d.toNat := by
        have := d.toNat_lt
        rw [field]; omega
      have ht : (d.toNat * 2 ^ 2 + t * 2 ^ 3) / 2 ^ 3 = t := by
        have := d.toNat_lt
        omega
      simp only [decodeTransaction, htag, hd, ht]
      cases d <;> rfl
    · rfl
    · rfl

/-- A sink word is one of the three operations (R64). -/
theorem decodeSinkOp_eq_ok {v : Nat} {i : Instr} : decodeSinkOp v = .ok i ↔
    (∃ m : Mods, i = .setMods m ∧ v = m.toNat) ∨ (∃ k : Keycode, i = .setKey k ∧ v = 2 ^ 16 + k.toNat) ∨
    (i = .send ∧ v = 2 * 2 ^ 16) := by
  constructor
  · intro h
    unfold decodeSinkOp at h
    split at h
    · cases h
      exact .inl ⟨_, rfl, by rw [BitVec.toNat_ofNat]; omega⟩
    · cases h
      exact .inr (.inl ⟨_, rfl, by rw [BitVec.toNat_ofNat, field]; omega⟩)
    · split at h <;> cases h
      rename_i hop hvalue
      rw [field] at hvalue
      exact .inr (.inr ⟨rfl, by omega⟩)
    · cases h
    · cases h
  · rintro (⟨m, rfl, rfl⟩ | ⟨k, rfl, rfl⟩ | ⟨rfl, rfl⟩)
    · have := m.isLt
      have hop : m.toNat / 2 ^ 16 = 0 := by omega
      simp only [decodeSinkOp, hop, BitVec.ofNat_toNat, BitVec.setWidth_eq]
    · have := k.isLt
      have hop : (2 ^ 16 + k.toNat) / 2 ^ 16 = 1 := by omega
      have hvalue : field (2 ^ 16 + k.toNat) 0 16 = k.toNat := by rw [field]; omega
      simp only [decodeSinkOp, hop, hvalue, BitVec.ofNat_toNat, BitVec.setWidth_eq]
    · rfl

/-- A mode word of 35 bits is the row of its index, or a reserved index (R63). -/
theorem decodeModeIndex_of_lt {v : Nat} (h : v < 2 ^ 35) : decodeModeIndex v =
    (modeRow (field v 0 3) (BitVec.ofNat 16 (field v 3 16)) (BitVec.ofNat 16 (field v 19 16))).elim
      (.error .reservedModeIndex) .ok := by
  rw [decodeModeIndex, if_neg (Nat.not_le.2 h)]
  generalize field v 0 3 = idx
  match idx with
  | 0 | 1 | 2 | 3 | 4 => rfl
  | _ + 5 => rfl

theorem decodeModeIndex_of_wide {v : Nat} (h : 2 ^ 35 ≤ v) : decodeModeIndex v = .error .strayBits := if_pos h

/-- The rows of the modes are those of index 0 to 4 (R63), each encoded as its mode word. -/
theorem encode_modeRow {idx : Nat} {k : Keycode} {m : Mods} {i : Instr} (h : modeRow idx k m = some i) :
    idx < 5 ∧ encode i = modeWordIn idx k m ∧ i.wellFormed = true := by
  unfold modeRow at h
  split at h <;> cases h <;> exact ⟨by decide, rfl, rfl⟩

/-- A mode word is the event's row (R63). -/
theorem decodeModeIndex_eq_ok {v : Nat} {i : Instr} : decodeModeIndex v = .ok i ↔
    ∃ idx k m, modeRow idx k m = some i ∧ v = idx + k.toNat * 2 ^ 3 + m.toNat * 2 ^ 19 := by
  constructor
  · intro h
    by_cases hwide : 2 ^ 35 ≤ v
    · rw [decodeModeIndex_of_wide hwide] at h
      cases h
    · rw [decodeModeIndex_of_lt (Nat.not_le.1 hwide)] at h
      cases hrow : modeRow (field v 0 3) (BitVec.ofNat 16 (field v 3 16)) (BitVec.ofNat 16 (field v 19 16)) with
      | none => rw [hrow] at h; cases h
      | some j =>
        rw [hrow] at h
        cases h
        refine ⟨_, _, _, hrow, ?_⟩
        simp only [BitVec.toNat_ofNat, field]
        omega
  · rintro ⟨idx, k, m, hrow, hv⟩
    obtain ⟨hidx, -, -⟩ := encode_modeRow hrow
    have hk := k.isLt
    have hm := m.isLt
    have hindex : field v 0 3 = idx := by rw [field]; omega
    have hkey : field v 3 16 = k.toNat := by rw [field]; omega
    have hmods : field v 19 16 = m.toNat := by rw [field]; omega
    rw [decodeModeIndex_of_lt (by omega), hindex, hkey, hmods]
    simp [hrow]

theorem decode_frame_eq_ok {v : Nat} {i : Instr} : decode ⟨.frame, v⟩ = .ok i ↔
    ∃ levels t, i = .frame levels t ∧ encode i = ⟨.frame, v⟩ := by
  constructor
  · intro h
    cases h
    refine ⟨_, _, rfl, ?_⟩
    simp only [encode, BitVec.toNat_ofNat, field, InWord.mk.injEq, true_and]
    omega
  · rintro ⟨levels, t, rfl, hv⟩
    have hlevels := levels.isLt
    cases hv
    have hbits : field (levels.toNat + t * 2 ^ 11) 0 11 = levels.toNat := by rw [field]; omega
    have htime : (levels.toNat + t * 2 ^ 11) / 2 ^ 11 = t := by omega
    simp only [decode, hbits, htime, BitVec.ofNat_toNat, BitVec.setWidth_eq]

/-! ### Every format -/

/-- Settles O1: a decode row goes through the opcode map, and each other format reads back the operands it placed. -/
theorem decodeOfEncodeIsTheInstruction : Obligations.DecodeOfEncodeIsTheInstruction := by
  intro i hwf
  cases i with
  | pfxBreak b e => rw [encode, decode_decodeWordIn, decodeDecodeWord_F0]
  | pfxExt b e => rw [encode, decode_decodeWordIn, decodeDecodeWord_E0]
  | breakKey e s => rw [encode, decode_decodeWordIn, decodeDecodeWord_of_ordinary true hwf]; rfl
  | makeKey e s => rw [encode, decode_decodeWordIn, decodeDecodeWord_of_ordinary false hwf]; rfl
  | makeLShift e | makeRShift e | breakLShift e | breakRShift e => cases e <;> rfl
  | frame levels t => exact decode_frame_eq_ok.2 ⟨levels, t, rfl, rfl⟩
  | edge d t => exact decodeTransaction_eq_ok.2 (.inl ⟨d, t, rfl, rfl⟩)
  | setMods m => exact decodeSinkOp_eq_ok.2 (.inl ⟨m, rfl, rfl⟩)
  | setKey k => exact decodeSinkOp_eq_ok.2 (.inr (.inl ⟨k, rfl, rfl⟩))
  | modeIdentity k m => exact decodeModeIndex_eq_ok.2 ⟨0, k, m, rfl, rfl⟩
  | modeDigraph k m => exact decodeModeIndex_eq_ok.2 ⟨1, k, m, rfl, rfl⟩
  | modeWordSubstitute k m => exact decodeModeIndex_eq_ok.2 ⟨2, k, m, rfl, rfl⟩
  | modeWordReverse k m => exact decodeModeIndex_eq_ok.2 ⟨3, k, m, rfl, rfl⟩
  | modeRandomInterject k m => exact decodeModeIndex_eq_ok.2 ⟨4, k, m, rfl, rfl⟩
  | _ => rfl

/-- Settles O2: format by format, what a word decodes to is encoded by that word. -/
theorem encodeOfDecodeIsTheWord : Obligations.EncodeOfDecodeIsTheWord := by
  rintro ⟨fmt, v⟩ i h
  cases fmt with
  | decodeWord =>
    simp only [decode] at h
    split at h <;> cases h
    rename_i hv
    refine ⟨?_, wellFormed_decodeDecodeWord _⟩
    rw [encode_decodeDecodeWord, decodeWordIn, decodeWordOf_fields, BitVec.toNat_ofNat, Nat.mod_eq_of_lt hv]
  | frame =>
    obtain ⟨levels, t, rfl, hword⟩ := decode_frame_eq_ok.1 h
    exact ⟨hword, rfl⟩
  | transaction =>
    obtain ⟨d, t, rfl, rfl⟩ | ⟨rfl, rfl⟩ | ⟨rfl, rfl⟩ := decodeTransaction_eq_ok.1 h <;> exact ⟨rfl, rfl⟩
  | sinkOp =>
    obtain ⟨m, rfl, rfl⟩ | ⟨k, rfl, rfl⟩ | ⟨rfl, rfl⟩ := decodeSinkOp_eq_ok.1 h <;> exact ⟨rfl, rfl⟩
  | modeIndex =>
    obtain ⟨idx, k, m, hrow, rfl⟩ := decodeModeIndex_eq_ok.1 h
    exact (encode_modeRow hrow).2

/-- Settles O4: each word is decoded by its table. -/
theorem tableWordsDecode : Obligations.TableWordsDecode := by
  unfold Obligations.TableWordsDecode
  decide

/-! ### Reserved words and the step -/

theorem step_of_undecodable {s : State} {w : InWord} {rest : List InWord} {e : DecodeError}
    (h : s.presented = w :: rest) (hdecode : decode w = .error e) : step s = .refused (.undecodable e) := by
  simp [step, fetch, h, hdecode]

theorem decodeTransaction_of_tag_three {v : Nat} (h : v % 4 = 3) : decodeTransaction v = .error .reservedTag := by
  have htag : field v 0 2 = 3 := by rw [field]; omega
  simp only [decodeTransaction, htag]

theorem decodeSinkOp_of_op_three {v : Nat} (h : v / 2 ^ 16 = 3) : decodeSinkOp v = .error .reservedSinkOp := by
  simp only [decodeSinkOp, h]

theorem modeRow_eq_none {idx : Nat} (k : Keycode) (m : Mods) (h : 5 ≤ idx) : modeRow idx k m = none := by
  obtain ⟨n, rfl⟩ := Nat.exists_eq_add_of_le' h
  rfl

theorem decodeModeIndex_of_reserved {v : Nat} (hv : v < 2 ^ 35) (h : 5 ≤ v % 8) :
    decodeModeIndex v = .error .reservedModeIndex := by
  rw [decodeModeIndex_of_lt hv, modeRow_eq_none _ _ (by rw [field]; omega)]
  rfl

/-- Settles O5: each reserved word is an error of its own format's decoder, which the step passes on. -/
theorem reservedWordsAreRefused : Obligations.ReservedWordsAreRefused := by
  rintro s ⟨fmt, v⟩ rest h
  refine ⟨?_, ?_, ?_⟩
  · rintro rfl htag
    exact step_of_undecodable h (decodeTransaction_of_tag_three htag)
  · rintro rfl hop
    exact step_of_undecodable h (decodeSinkOp_of_op_three hop)
  · rintro rfl hv hindex
    exact step_of_undecodable h (decodeModeIndex_of_reserved hv hindex)

/-- Settles O6: the two cases of a step that meets no reserved word. -/
theorem stepRunsThePresentedInstruction : Obligations.StepRunsThePresentedInstruction :=
  ⟨fun _ _ _ _ h hdecode => step_of_presented h hdecode, fun _ h => step_of_idle h⟩

end Sys2Proof.Proofs
end

section
/-! PROOFS. The queue as a sequence: a pop takes the first unread code, a burst fills the room there is, and every
interleaving of pushes and pops delivers in order (spec/20_memory.md R49, spec/41_framequeue.md R80, R81). -/

namespace Sys2Proof.Proofs

open Sys2Proof Sys2Proof.Machine Sys2Proof.Claims

/-! ### One push and one pop -/

/-- A push answers whether there was room, and adds the code to the unread ones if so (R79, R50). -/
theorem push_unread (code : Byte) {s : State} (hI : Invariants s) :
    ∃ t, push code s = .next (decide ((unread s).length < s.cfg.qcap), t) ∧ Invariants t ∧ t.cfg = s.cfg ∧
      unread t = if (unread s).length < s.cfg.qcap then unread s ++ [code] else unread s := by
  obtain ⟨t, hpush, hunread⟩ := pushNeverOverwritesUnread code s hI
  exact ⟨t, hpush, inv_of_push hI hpush, push_cfg hpush, hunread⟩

/-- The code at `tail` is the first of the unread ones, and moving `tail` on leaves the others. -/
theorem unread_eq_cons {s : State} (hI : Invariants s) (hne : s.head ≠ s.tail) {code : Byte}
    (hread : Memory.read s.buf s.tail = some code) :
    unread s = code :: unread { s with tail := (s.tail + 1) % s.cfg.qsize } := by
  have hfirst : unreadAt s 0 = some code := by
    rw [unreadAt, Nat.add_zero, Nat.mod_eq_of_lt hI.tailInRange, hread]
  rw [unread, ← queueCount_pop hI.headInRange hI.tailInRange hne, List.range_succ_eq_map, List.map_cons, List.map_map,
    hfirst, unread]
  exact congrArg _ (List.map_congr_left fun i _ => congrArg (Option.getD · 0) (unreadAt_pop s i).symm)

theorem unread_eq_nil_iff {s : State} (hI : Invariants s) : unread s = [] ↔ s.head = s.tail := by
  rw [← List.length_eq_zero_iff, unread_length, queueCount_eq, ring_count hI.headInRange hI.tailInRange]
  have := hI.headInRange
  have := hI.tailInRange
  split <;> omega

/-- Settles O58: an empty queue answers none, any other its first unread code. -/
theorem popDeliversTheFirstUnread : Obligations.PopDeliversTheFirstUnread := by
  intro s hI
  by_cases hempty : s.head = s.tail
  · exact ⟨none, s, pop_of_empty hempty, hI, rfl, by simpa using (unread_eq_nil_iff hI).2 hempty⟩
  · obtain ⟨code, hread⟩ := tail_entry_written hI hempty
    have hpop := pop_of_code hempty hI.tailInRange hread
    have hunread := unread_eq_cons hI hempty hread
    exact ⟨some code, _, hpop, inv_of_pop hI hpop, hunread, by simp [hunread]⟩

/-! ### Bursts -/

theorem pushAll_cons {code : Byte} {codes : List Byte} {s t : State} {ok : Bool} (h : push code s = .next (ok, t)) :
    pushAll (code :: codes) s = pushAll codes t := by
  rw [pushAll, h]
  rfl

/-- Settles O17, by induction on the burst: with room its first code is stored, and at a full queue all of it is
dropped. -/
theorem burstDropsExactlyTheExcess : Obligations.BurstDropsExactlyTheExcess := by
  intro codes
  induction codes with
  | nil => exact fun s hI => ⟨s, rfl, hI, by simp⟩
  | cons code codes ih =>
    intro s hI
    obtain ⟨t, hpush, hIt, hcfg, hunread⟩ := push_unread code hI
    obtain ⟨u, hrest, hIu, hall⟩ := ih t hIt
    refine ⟨u, (pushAll_cons hpush).trans hrest, hIu, ?_⟩
    rw [hall, hunread, hcfg]
    split
    · rename_i hroom
      obtain ⟨room, hsub⟩ := Nat.exists_eq_add_of_lt hroom
      rw [List.length_append, List.length_singleton, List.append_assoc,
        show s.cfg.qcap - (unread s).length = room + 1 by omega,
        show s.cfg.qcap - ((unread s).length + 1) = room by omega]
      rfl
    · rename_i hfull
      rw [Nat.sub_eq_zero_of_le (Nat.not_lt.1 hfull), List.take_zero, List.take_zero]

/-! ### Interleavings -/

/-- The accesses complete from any state of R33 and keep its invariants; the sequence so far and the accepted codes
are the delivered codes and the sequence left. -/
theorem accessAll_delivers (accesses : List QueueAccess) {s : State} (hI : Invariants s) :
    ∃ accepted delivered t, accessAll accesses s = .next (accepted, delivered, t) ∧ Invariants t ∧
      unread s ++ accepted = delivered ++ unread t := by
  induction accesses generalizing s with
  | nil => exact ⟨[], [], s, rfl, hI, by simp⟩
  | cons access rest ih =>
    cases access with
    | push code =>
      obtain ⟨t, hpush, hIt, -, hunread⟩ := push_unread code hI
      obtain ⟨accepted, delivered, u, hrest, hIu, hseq⟩ := ih hIt
      refine ⟨_, delivered, u, by rw [accessAll, hpush, andThen_next, hrest, andThen_next], hIu, ?_⟩
      rw [← hseq, hunread]
      by_cases hroom : (unread s).length < s.cfg.qcap <;> simp [hroom]
    | pop =>
      obtain ⟨r, t, hpop, hIt, hunread, -⟩ := popDeliversTheFirstUnread s hI
      obtain ⟨accepted, delivered, u, hrest, hIu, hseq⟩ := ih hIt
      refine ⟨accepted, _, u, by rw [accessAll, hpop, andThen_next, hrest, andThen_next], hIu, ?_⟩
      rw [hunread, List.append_assoc, hseq, List.append_assoc]

/-- As many pops as there are unread codes return them in order and leave the queue empty. -/
theorem popAll_unread {codes : List Byte} {s : State} (hI : Invariants s) (hunread : unread s = codes) :
    ∃ u, popAll codes.length s = .next (codes.map some, u) ∧ u.head = u.tail := by
  induction codes generalizing s with
  | nil => exact ⟨s, rfl, (unread_eq_nil_iff hI).1 hunread⟩
  | cons code codes ih =>
    have hne : s.head ≠ s.tail := by
      rw [Ne, ← unread_eq_nil_iff hI, hunread]
      exact List.cons_ne_nil code codes
    obtain ⟨first, hread⟩ := tail_entry_written hI hne
    have hpop := pop_of_code hne hI.tailInRange hread
    obtain ⟨rfl, hrest⟩ := List.cons.inj (hunread.symm.trans (unread_eq_cons hI hne hread))
    obtain ⟨u, hpops, hempty⟩ := ih (inv_of_pop hI hpop) hrest.symm
    exact ⟨u, by rw [List.length_cons, popAll, hpop, andThen_next, hpops]; rfl, hempty⟩

/-- Settles O18: the order by induction on the accesses; from an empty queue a burst with room for it is all unread, and
the pops return what is unread. -/
theorem queueDeliversInOrder : Obligations.QueueDeliversInOrder := by
  refine ⟨fun accesses s hI => accessAll_delivers accesses hI, fun codes s hI hempty hroom => ?_⟩
  obtain ⟨t, hpush, hIt, hunread⟩ := burstDropsExactlyTheExcess codes s hI
  rw [(unread_eq_nil_iff hI).2 hempty, List.nil_append, List.length_nil, Nat.sub_zero, List.take_of_length_le hroom]
    at hunread
  obtain ⟨u, hpops, hdone⟩ := popAll_unread hIt hunread
  exact ⟨t, u, hpush, hpops, hdone⟩

end Sys2Proof.Proofs
end

section
/-! PROOFS. EDGE by the frame it finds, and FRAME as a run of edges inside one frame and the edge that ends it
(spec/40_bitframer.md R69 to R77). -/

namespace Sys2Proof.Proofs

open Sys2Proof Sys2Proof.Machine Sys2Proof.Claims

/-! ### The end of an edge -/

theorem finishEdge_of_mid {bc : Nat} {sr : Byte} {s : State} (h : bc ≠ s.cfg.frameEdges) :
    finishEdge bc sr s = .next { s with bitCount := bc, shiftRegister := sr } :=
  if_neg h

theorem finishEdge_of_last {bc : Nat} {sr : Byte} {s : State} (h : bc = s.cfg.frameEdges) :
    finishEdge bc sr s = andThen (push sr s) fun r => .next { r.2 with bitCount := 0, shiftRegister := 0 } :=
  if_pos h

/-- The last edge of a frame stores the code and starts anew (R75). -/
theorem finishEdge_of_room {bc : Nat} {sr : Byte} {s : State} (h : bc = s.cfg.frameEdges)
    (hroom : (s.head + 1) % s.cfg.qsize ≠ s.tail) (hhead : s.head < s.cfg.qsize) :
    finishEdge bc sr s = .next { s with
      buf := Memory.write s.buf s.head sr, head := (s.head + 1) % s.cfg.qsize, bitCount := 0, shiftRegister := 0 } := by
  rw [finishEdge_of_last h, push_of_room hroom hhead, andThen_next]

/-- At a full queue the last edge of a frame drops the code (R75, R79). -/
theorem finishEdge_of_full {bc : Nat} {sr : Byte} {s : State} (h : bc = s.cfg.frameEdges)
    (hfull : (s.head + 1) % s.cfg.qsize = s.tail) :
    finishEdge bc sr s = .next { s with bitCount := 0, shiftRegister := 0 } := by
  rw [finishEdge_of_last h, push_of_full hfull, andThen_next]

/-! ### The frame an edge finds -/

/-- After a gap longer than IDLE_TIMEOUT_MS the edge finds a new frame (R71). -/
theorem frameAtEdge_of_idle {now : Nat} {s : State} (hlast : s.lastEdgeTime < 2 ^ s.cfg.timeWidth)
    (h : s.cfg.idleTimeoutMs < (now + 2 ^ s.cfg.timeWidth - s.lastEdgeTime) % 2 ^ s.cfg.timeWidth) :
    frameAtEdge now s = (0, 0) :=
  if_pos (by rwa [elapsed_of_lt now hlast])

/-- After any other gap it finds the frame in progress (R70). -/
theorem frameAtEdge_of_no_idle {now : Nat} {s : State} (hlast : s.lastEdgeTime < 2 ^ s.cfg.timeWidth)
    (h : (now + 2 ^ s.cfg.timeWidth - s.lastEdgeTime) % 2 ^ s.cfg.timeWidth ≤ s.cfg.idleTimeoutMs) :
    frameAtEdge now s = (s.bitCount, s.shiftRegister) :=
  if_neg (by rw [elapsed_of_lt now hlast]; omega)

theorem frameAtEdge_eq {now : Nat} {s : State} (hlast : s.lastEdgeTime < 2 ^ s.cfg.timeWidth) :
    let gap := (now + 2 ^ s.cfg.timeWidth - s.lastEdgeTime) % 2 ^ s.cfg.timeWidth
    frameAtEdge now s =
      (if s.cfg.idleTimeoutMs < gap then 0 else s.bitCount, if s.cfg.idleTimeoutMs < gap then 0 else s.shiftRegister) := by
  intro gap
  by_cases hidle : s.cfg.idleTimeoutMs < gap
  · rw [if_pos hidle, if_pos hidle, frameAtEdge_of_idle hlast hidle]
  · rw [if_neg hidle, if_neg hidle, frameAtEdge_of_no_idle hlast (Nat.not_lt.1 hidle)]

/-- Settles O8: the edge ends the frame it finds, one edge longer, with the sampled bit. -/
theorem edgeTransaction : Obligations.EdgeTransaction := by
  intro d t s hlast hhead now gap bc sr
  have hedge : exec (.edge d t) s = finishEdge (bc + 1) (sampleBit bc sr d) { s with lastEdgeTime := now } :=
    edge_of_frameAtEdge (frameAtEdge_eq hlast)
  rw [hedge]
  exact ⟨sampleBit bc sr d, getLsbD_sampleBit bc sr d, fun hmid => finishEdge_of_mid hmid,
    fun hend hroom => finishEdge_of_room hend hroom hhead, fun hend hfull => finishEdge_of_full hend hfull⟩

/-- A start bit is not stored (R74). -/
theorem sampleBit_zero (sr : Byte) (d : Bool) : sampleBit 0 sr d = sr := if_neg (by omega)

/-- Nor are parity and stop (R74). -/
theorem sampleBit_of_gt {bc : Nat} (h : 8 < bc) (sr : Byte) (d : Bool) : sampleBit bc sr d = sr := if_neg (by omega)

/-- Settles O12: the long gap makes the edge a start bit, and the exact one leaves the frame in progress. -/
theorem idleGapAbandonsThePartialFrame : Obligations.IdleGapAbandonsThePartialFrame := by
  intro d t s hlast hedges now gap
  refine ⟨fun hidle => ?_, fun hexact hmid => ?_⟩
  · refine (edge_of_frameAtEdge (frameAtEdge_of_idle hlast hidle)).trans ?_
    rw [sampleBit_zero]
    exact finishEdge_of_mid hedges.symm
  · exact ⟨_, (edge_of_frameAtEdge (frameAtEdge_of_no_idle hlast hexact.le)).trans (finishEdge_of_mid hmid), rfl⟩

/-! ### Runs of edges -/

theorem foldl_edge_eq_edges (ds : List Bool) (t : Nat) (x : Answer State) :
    ds.foldl (fun a d => andThen a fun s => exec (.edge d t) s) x = andThen x (edges ds t) := by
  induction ds generalizing x with
  | nil => exact (andThen_answer_next x).symm
  | cons d ds ih => rw [List.foldl_cons, ih, andThen_assoc]; rfl

/-- Settles O10: the levels of the frame word are listed from bit 10 down. -/
theorem frameIsElevenEdges : Obligations.FrameIsElevenEdges := by
  intro levels t s
  rw [foldl_edge_eq_edges]
  rfl

/-- With no timeout a run of edges does what it does at the time of the edge before it. -/
theorem edges_of_no_timeout {ds : List Bool} {t : Nat} {s : State} (hds : ds ≠ [])
    (h : frameAtEdge (t % 2 ^ s.cfg.timeWidth) s = (s.bitCount, s.shiftRegister)) :
    edges ds t s = edges ds t { s with lastEdgeTime := t % 2 ^ s.cfg.timeWidth } := by
  cases ds with
  | nil => exact absurd rfl hds
  | cons d ds =>
    have hstill : frameAtEdge (t % 2 ^ s.cfg.timeWidth) { s with lastEdgeTime := t % 2 ^ s.cfg.timeWidth } =
        (s.bitCount, s.shiftRegister) := by
      simp [frameAtEdge]
    rw [edges, edges, edge_of_frameAtEdge h, edge_of_frameAtEdge hstill]

/-- At a frame boundary a timeout makes no difference. -/
theorem frameAtEdge_of_boundary {now : Nat} {s : State} (hbc : s.bitCount = 0) (hsr : s.shiftRegister = 0) :
    frameAtEdge now s = (s.bitCount, s.shiftRegister) := by
  unfold frameAtEdge
  split
  · rw [hbc, hsr]
  · rfl

/-- An edge at the time of the edge before it goes on with the frame in progress (R70). -/
theorem edge_of_no_gap (d : Bool) {t : Nat} {s : State} (hl : s.lastEdgeTime = t % 2 ^ s.cfg.timeWidth) :
    edge d t s = finishEdge (s.bitCount + 1) (sampleBit s.bitCount s.shiftRegister d) s := by
  have hframe : frameAtEdge (t % 2 ^ s.cfg.timeWidth) s = (s.bitCount, s.shiftRegister) := by
    simp [frameAtEdge, hl]
  rw [edge_of_frameAtEdge hframe, ← hl]

/-- The edges up to the last of a frame, with no gap, push the register that their data bits have filled. -/
theorem edges_to_frame_end (ds : List Bool) (last : Bool) {t : Nat} {s : State}
    (hl : s.lastEdgeTime = t % 2 ^ s.cfg.timeWidth) (hend : s.bitCount + ds.length + 1 = s.cfg.frameEdges)
    (hdata : 8 < s.bitCount + ds.length) (hhead : s.head < s.cfg.qsize) :
    ∃ sr : Byte,
      (∀ j, j < 8 → sr.getLsbD j =
        if h : s.bitCount ≤ j + 1 ∧ j + 1 - s.bitCount < ds.length then ds[j + 1 - s.bitCount]'h.2
        else s.shiftRegister.getLsbD j) ∧
      edges (ds ++ [last]) t s = .next (
        if (s.head + 1) % s.cfg.qsize = s.tail then { s with bitCount := 0, shiftRegister := 0 }
        else { s with
          buf := Memory.write s.buf s.head sr, head := (s.head + 1) % s.cfg.qsize, bitCount := 0, shiftRegister := 0 }) := by
  obtain ⟨sr, hrun, hbits⟩ := edges_inside_frame ds t s hl (by omega)
  refine ⟨sr, hbits, ?_⟩
  have hlast := edge_of_no_gap last (s := { s with bitCount := s.bitCount + ds.length, shiftRegister := sr }) hl
  rw [sampleBit_of_gt hdata] at hlast
  rw [edges_append, hrun, andThen_next]
  refine (andThen_answer_next _).trans (hlast.trans ?_)
  split
  · rename_i hfull
    exact finishEdge_of_full hend hfull
  · rename_i hroom
    exact finishEdge_of_room hend hroom hhead

/-- Settles O9: the first ten edges stay inside the frame, and the stop edge pushes the eight data bits. -/
theorem frameDeliversItsDataBits : Obligations.FrameDeliversItsDataBits := by
  intro levels t s hedges hbc hsr hhead
  obtain ⟨code, hbits, hrun⟩ := edges_to_frame_end ((List.range 10).map fun i => levels.getLsbD (10 - i))
    (levels.getLsbD 0) (t := t) (s := { s with lastEdgeTime := t % 2 ^ s.cfg.timeWidth }) rfl
    (by simp [hbc, hedges]) (by simp [hbc]) hhead
  refine ⟨code, fun j hj => ?_, ?_⟩
  · rw [hbits j hj, dif_pos (by simp [hbc]; omega)]
    simp [hbc]
  · refine ((edges_of_no_timeout (by simp) (frameAtEdge_of_boundary hbc hsr)).trans hrun).trans ?_
    simp only [hbc, hsr]

/-- Settles O11: the parity edge ends the frame, and the stop edge is the start bit of the next. -/
theorem misalignedFrameShiftsTheCode : Obligations.MisalignedFrameShiftsTheCode := by
  intro levels t s hedges hbc hsr hhead hlast hgap hroom
  obtain ⟨code, hbits, hrun⟩ := edges_to_frame_end ((List.range 9).map fun i => levels.getLsbD (10 - i))
    (levels.getLsbD 1) (t := t) (s := { s with lastEdgeTime := t % 2 ^ s.cfg.timeWidth }) rfl
    (by simp [hbc, hedges]) (by simp [hbc]) hhead
  have hcode : ∀ j, j < 8 → code.getLsbD j = levels.getLsbD (10 - j) := fun j hj => by
    rw [hbits j hj, dif_pos (by simp [hbc]; omega)]
    simp [hbc]
  refine ⟨code, hcode 0 (by decide), fun j hj => ?_, ?_⟩
  · rw [hcode (j + 1) (by omega)]
    congr 1
    omega
  · have hten := (edges_of_no_timeout (by simp) (frameAtEdge_of_no_idle hlast hgap)).trans
      (hrun.trans (congrArg _ (if_neg hroom)))
    refine (edges_append ((List.range 9).map (fun i => levels.getLsbD (10 - i)) ++ [levels.getLsbD 1])
      [levels.getLsbD 0] t s).trans ?_
    rw [hten, andThen_next]
    refine (andThen_answer_next _).trans ((edge_of_no_gap _ rfl).trans ?_)
    rw [sampleBit_zero]
    refine (finishEdge_of_mid (by simp [hedges])).trans ?_
    simp only [hbc, hsr]

end Sys2Proof.Proofs
end

section
/-! PROOFS. The rows of the opcode map: modifiers, navigation keys, the mode switches and an ordinary press, and the POLL
that runs them (spec/42_decoder.md R84, R88 to R99, spec/41_framequeue.md R82). -/

namespace Sys2Proof.Proofs

open Sys2Proof Sys2Proof.Machine Sys2Proof.Claims

/-! ### Modifiers -/

/-- The modifier codes and the bit each selects (R88). -/
theorem modbit_eq_some {l : ModLayout} {e : Bool} {code : Byte} {bit : Mods} (h : modbit l e code = some bit) :
    (code = 0x12 ∧ bit = l.lshift) ∨ (code = 0x59 ∧ bit = l.rshift) ∨
    (code = 0x11 ∧ bit = if e then l.ralt else l.lalt) ∨ (code = 0x14 ∧ bit = if e then l.rctrl else l.lctrl) ∨
    (code = 0x1F ∧ e = true ∧ bit = l.lgui) ∨ (code = 0x27 ∧ e = true ∧ bit = l.rgui) := by
  unfold modbit at h
  split at h
  · exact .inl ⟨‹_›, (Option.some.inj h).symm⟩
  split at h
  · exact .inr (.inl ⟨‹_›, (Option.some.inj h).symm⟩)
  split at h
  · exact .inr (.inr (.inl ⟨‹_›, (Option.some.inj h).symm⟩))
  split at h
  · exact .inr (.inr (.inr (.inl ⟨‹_›, (Option.some.inj h).symm⟩)))
  split at h
  · rename_i hcode
    exact .inr (.inr (.inr (.inr (.inl ⟨hcode.1, hcode.2, (Option.some.inj h).symm⟩))))
  split at h
  · rename_i hcode
    exact .inr (.inr (.inr (.inr (.inr ⟨hcode.1, hcode.2, (Option.some.inj h).symm⟩))))
  · cases h

/-- A press: the mask with the bit set goes to the sink (R89). -/
theorem pressModifier_eq (bit : Mods) (s : State) : pressModifier bit s = { s with
    modifierMask := s.modifierMask ||| bit, breakPending := false, extendedPending := false,
    out := s.out ++ [.setMods (s.modifierMask ||| bit), .send],
    sink := { s.sink with mods := s.modifierMask ||| bit,
                          reports := s.sink.reports ++ [(s.modifierMask ||| bit, s.sink.key)] } } := rfl

/-- A release: the mask with the bit clear goes to the sink (R90). -/
theorem releaseModifier_eq (bit : Mods) (s : State) : releaseModifier bit s = { s with
    modifierMask := s.modifierMask &&& ~~~bit, breakPending := false, extendedPending := false,
    out := s.out ++ [.setMods (s.modifierMask &&& ~~~bit), .send],
    sink := { s.sink with mods := s.modifierMask &&& ~~~bit,
                          reports := s.sink.reports ++ [(s.modifierMask &&& ~~~bit, s.sink.key)] } } := rfl

theorem exec_pressRow (s : State) (e : Bool) : ∀ p ∈ pressRows s.cfg.mods e, exec p.1 s = .next (pressModifier p.2 s) := by
  simp only [pressRows, List.forall_mem_cons]
  exact ⟨rfl, rfl, rfl, rfl, rfl, rfl, rfl, rfl, by simp⟩

theorem exec_releaseRow (s : State) (e : Bool) :
    ∀ p ∈ releaseRows s.cfg.mods e, exec p.1 s = .next (releaseModifier p.2 s) := by
  simp only [releaseRows, List.forall_mem_cons]
  exact ⟨rfl, rfl, rfl, rfl, rfl, rfl, rfl, rfl, by simp⟩

/-- The rows of the eight modifiers under `B = b`: the presses, or the releases (R60, R88). -/
def modifierRows (b : Bool) (l : ModLayout) (e : Bool) : List (Instr × Mods) :=
  if b then releaseRows l e else pressRows l e

/-- A modifier code goes to the row of the bit it selects (R60, R88), which stands at the named place of the list. -/
theorem decode_mem_modifierRows (b : Bool) {l : ModLayout} {e : Bool} {code : Byte} {bit : Mods}
    (h : modbit l e code = some bit) : (decodeDecodeWord (decodeWordOf b e code), bit) ∈ modifierRows b l e := by
  obtain ⟨rfl, rfl⟩ | ⟨rfl, rfl⟩ | ⟨rfl, rfl⟩ | ⟨rfl, rfl⟩ | ⟨rfl, rfl, rfl⟩ | ⟨rfl, rfl, rfl⟩ := modbit_eq_some h
  · exact List.mem_of_getElem? (i := 0) (by cases b <;> cases e <;> rfl)
  · exact List.mem_of_getElem? (i := 1) (by cases b <;> cases e <;> rfl)
  · exact List.mem_of_getElem? (i := if e then 3 else 2) (by cases b <;> cases e <;> rfl)
  · exact List.mem_of_getElem? (i := if e then 5 else 4) (by cases b <;> cases e <;> rfl)
  · exact List.mem_of_getElem? (i := 6) (by cases b <;> rfl)
  · exact List.mem_of_getElem? (i := 7) (by cases b <;> rfl)

/-- A decode word of a modifier's row has the code of that modifier (R60, R88). -/
theorem modbit_of_mem_modifierRows {b b' e e' : Bool} {l : ModLayout} {code : Byte} {bit : Mods}
    (h : (decodeDecodeWord (decodeWordOf b e code), bit) ∈ modifierRows b' l e') : modbit l e code = some bit := by
  have hword := encode_decode_decodeWordOf b e code
  generalize decodeDecodeWord (decodeWordOf b e code) = i at h hword
  cases b' <;> simp only [modifierRows, pressRows, releaseRows, List.mem_cons, Prod.mk.injEq, List.not_mem_nil, or_false,
    if_true, if_false, Bool.false_eq_true] at h
  all_goals
    obtain ⟨rfl, rfl⟩ | ⟨rfl, rfl⟩ | ⟨rfl, rfl⟩ | ⟨rfl, rfl⟩ | ⟨rfl, rfl⟩ | ⟨rfl, rfl⟩ | ⟨rfl, rfl⟩ | ⟨rfl, rfl⟩ := h
    all_goals
      obtain ⟨-, rfl, rfl⟩ := decodeWordIn_inj hword
      rfl

/-- Settles O21: every press row is a press, and every modifier code reaches its row. -/
theorem modifierPressSetsItsBit : Obligations.ModifierPressSetsItsBit :=
  ⟨fun s e p hp => (exec_pressRow s e p hp).trans (congrArg _ (pressModifier_eq p.2 s)),
    fun _ _ _ _ => decode_mem_modifierRows false⟩

/-- Settles O22: every release row is a release, and every modifier code reaches its row. -/
theorem modifierReleaseClearsItsBit : Obligations.ModifierReleaseClearsItsBit :=
  ⟨fun s e p hp => (exec_releaseRow s e p hp).trans (congrArg _ (releaseModifier_eq p.2 s)),
    fun _ _ _ _ => decode_mem_modifierRows true⟩

/-- Clearing a bit that was just set gives back a mask that did not have it (R91). -/
theorem maskReleased_maskPressed {mask bit : Mods} (h : mask &&& bit = 0) :
    maskReleased (maskPressed mask bit) bit = mask := by
  ext j hj
  have hbit : (mask[j] && bit[j]) = false := by rw [← BitVec.getElem_and, h]; simp
  simp only [maskReleased, maskPressed, BitVec.getElem_and, BitVec.getElem_or, BitVec.getElem_not]
  cases hb : bit[j]
  · simp
  · simpa [hb] using hbit.symm

theorem maskReleased_and (mask bit : Mods) : maskReleased mask bit &&& bit = 0 := by
  rw [maskReleased, BitVec.and_assoc, BitVec.and_comm (~~~bit)]
  simp

/-- Settles O23: the press sets the bit of a mask that stays until the release clears it. -/
theorem modifierRoundTrip : Obligations.ModifierRoundTrip := by
  intro s t u v e e' n press release bit hpress hrelease hexec hmask hcfg hexec'
  have ht := exec_pressRow s e _ (List.mem_of_getElem? hpress)
  cases ht.symm.trans hexec
  have hrow : (release, bit) ∈ releaseRows u.cfg.mods e' := hcfg ▸ List.mem_of_getElem? hrelease
  have hv := exec_releaseRow u e' _ hrow
  cases hv.symm.trans hexec'
  refine ⟨fun hclear => ?_, maskReleased_and _ _⟩
  have hpressed : u.modifierMask = maskPressed s.modifierMask bit := hmask
  show maskReleased u.modifierMask bit = s.modifierMask
  rw [hpressed, maskReleased_maskPressed hclear]

/-! ### Navigation keys -/

/-- A navigation press: the live mask and the key go to the sink, which keeps them (R93). -/
theorem pressNav_eq (k : Keycode) (s : State) : pressNav k s = { s with
    breakPending := false, extendedPending := false,
    out := s.out ++ [.setMods s.modifierMask, .setKey k, .send],
    sink := { mods := s.modifierMask, key := k, reports := s.sink.reports ++ [(s.modifierMask, k)] } } := rfl

/-- A navigation release: the key slot is cleared (R94). -/
theorem releaseNav_eq (s : State) : releaseNav s = { s with
    breakPending := false, extendedPending := false,
    out := s.out ++ [.setKey 0, .send],
    sink := { s.sink with key := 0, reports := s.sink.reports ++ [(s.sink.mods, 0)] } } := rfl

/-- Each of the nine keys has its own press row (R60 rows 19 to 27). -/
theorem exec_navRow_press (s : State) : ∀ r ∈ navRows s.cfg.navmap,
    decodeDecodeWord (decodeWordOf false true r.1) = r.2.1 ∧ exec r.2.1 s = .next (pressNav r.2.2.2 s) := by
  simp only [navRows, List.forall_mem_cons]
  exact ⟨⟨rfl, rfl⟩, ⟨rfl, rfl⟩, ⟨rfl, rfl⟩, ⟨rfl, rfl⟩, ⟨rfl, rfl⟩, ⟨rfl, rfl⟩, ⟨rfl, rfl⟩, ⟨rfl, rfl⟩, ⟨rfl, rfl⟩, by simp⟩

/-- Each of the nine keys has its own release row (R60 rows 28 to 36). -/
theorem exec_navRow_release (s : State) : ∀ r ∈ navRows s.cfg.navmap,
    decodeDecodeWord (decodeWordOf true true r.1) = r.2.2.1 ∧ exec r.2.2.1 s = .next (releaseNav s) := by
  simp only [navRows, List.forall_mem_cons]
  exact ⟨⟨rfl, rfl⟩, ⟨rfl, rfl⟩, ⟨rfl, rfl⟩, ⟨rfl, rfl⟩, ⟨rfl, rfl⟩, ⟨rfl, rfl⟩, ⟨rfl, rfl⟩, ⟨rfl, rfl⟩, ⟨rfl, rfl⟩, by simp⟩

/-- Settles O24: the row of each key is a press of its keycode. -/
theorem navigationPressHoldsTheKey : Obligations.NavigationPressHoldsTheKey :=
  fun s r hr => (exec_navRow_press s r hr).imp_right fun hexec => hexec.trans (congrArg _ (pressNav_eq r.2.2.2 s))

/-- Settles O25: the row of each key is a release. -/
theorem navigationReleaseClearsTheSlot : Obligations.NavigationReleaseClearsTheSlot :=
  fun s r hr => (exec_navRow_release s r hr).imp_right fun hexec => hexec.trans (congrArg _ (releaseNav_eq s))

/-! ### The mode switches -/

theorem nextModeIndex_toNat {c : Config} (old : BitVec 3) (h : c.numModes ≤ 5) :
    (nextModeIndex c old).toNat = min (old.toNat + 1) (c.numModes - 1) := by
  rw [nextModeIndex, BitVec.toNat_ofNat]
  omega

theorem prevModeIndex_toNat (old : BitVec 3) : (prevModeIndex old).toNat = old.toNat - 1 := by
  have := old.isLt
  rw [prevModeIndex, BitVec.toNat_ofNat]
  omega

/-- A switch clears the contexts under the policy, when the index changes (R108). -/
theorem switchMode_eq (new : BitVec 3) (s : State) : switchMode new s = flagsClear (
    if s.cfg.clearContextOnSwitch = true ∧ new ≠ s.modeIndex then
      { s with modeIndex := new, dgPrevKey := 0, dgPrevMods := 0, wsCount := 0, wrCount := 0 }
    else { s with modeIndex := new }) := by
  simp only [switchMode_eq_ite, Bool.and_eq_true, bne_iff_ne]
  split <;> rfl

/-- Settles O26: both rows are switches, to indices that three bits hold. -/
theorem modeSwitchIsClamped : Obligations.ModeSwitchIsClamped := by
  intro s _ hmodes
  simp only [List.forall_mem_cons]
  exact ⟨⟨_, nextModeIndex_toNat s.modeIndex hmodes, congrArg _ (switchMode_eq _ s)⟩,
    ⟨_, prevModeIndex_toNat s.modeIndex, congrArg _ (switchMode_eq _ s)⟩, by simp⟩

/-! ### An ordinary press, and POLL -/

/-- Settles O30: the active mode completes and leaves mode and mask; the flags are cleared after it. -/
theorem ordinaryPressCompletes : Obligations.OrdinaryPressCompletes := by
  intro s e code hindex hcap hwritten hdraws hdict
  obtain ⟨u, hmode⟩ := modeApply_completes (k := translateCode s.cfg code) (m := s.modifierMask) hindex hcap hwritten
    hdraws hdict
  obtain ⟨-, hframe⟩ := modeApply_frame hmode
  exact ⟨clearFlags u, andThen_eq_next.2 ⟨u, hmode, rfl⟩, rfl, rfl, (congrArg State.modeIndex hframe :),
    (congrArg State.modifierMask hframe :)⟩

/-- Settles O7: the pop answers none or the code at `tail`, whose row is the instruction of its decode word. -/
theorem pollRunsTheDecodedRow : Obligations.PollRunsTheDecodedRow := by
  refine fun s => ⟨fun hempty => execPoll_eq_next.2 (.inl ⟨hempty, rfl⟩), fun code hne ht hread => ?_⟩
  show execPoll s = _
  rw [execPoll, pop_of_code hne ht hread, andThen_next, ← runRow_decodeDecodeWord]
  rfl

end Sys2Proof.Proofs
end

section
/-! PROOFS. The modes' outputs: EMIT, the Digraph rules, the words of WordSubstitute and RandomInterject, the WordReverse
buffer (spec/44_mode_engine.md R105, R107, R111 to R123). -/

namespace Sys2Proof.Proofs

open Sys2Proof Sys2Proof.Machine Sys2Proof.Claims

/-! ### EMIT -/

theorem sinkAll_append (a b : List SinkOp) (s : State) : sinkAll (a ++ b) s = sinkAll b (sinkAll a s) := by
  simp only [sinkAll, List.append_assoc, List.foldl_append]

theorem emitAll_cons (k : Keycode) (m : Mods) (ps : List (Keycode × Mods)) (s : State) :
    emitAll ((k, m) :: ps) s = emitAll ps (emit k m s) :=
  sinkAll_append (emitOps k m) _ s

theorem emitAll_nil (s : State) : emitAll [] s = s := by
  simp [emitAll, sinkAll]

theorem emitAll_singleton (k : Keycode) (m : Mods) (s : State) : emitAll [(k, m)] s = emit k m s := by
  rw [emitAll_cons, emitAll_nil]

/-- Settles O31: the five operations send a press report and a clear report. -/
theorem emitIsPressThenClear : Obligations.EmitIsPressThenClear := by
  refine fun k m s ps => ⟨?_, emitAll_cons k m ps s, emitAll_nil s⟩
  simp [emit, sinkAll, emitOps, Sink.apply]

/-- The dispatch has keycode 0 as a neutral clear, whatever the mode (R107). -/
theorem modeApply_zero (m : Mods) (s : State) : modeApply 0 m s = .next (emit 0 m s) := rfl

/-- Settles O32: keycode 0 is tested before the mode, in the row of each mode and in the dispatch. -/
theorem keycodeZeroIsNeutral : Obligations.KeycodeZeroIsNeutral := by
  refine fun s m => ⟨?_, fun e code h => ?_⟩
  · simp only [List.forall_mem_cons]
    exact ⟨rfl, rfl, rfl, rfl, rfl, by simp⟩
  · show execMakeKey e code s = _
    rw [execMakeKey, h, modeApply_zero]
    rfl

/-! ### Digraph -/

/-- A rule matches on its previous event, unless it is ANY, and on its current one (R111). -/
theorem digraphMatches_iff {r : DigraphRule} {pk : Keycode} {pm : Mods} {k : Keycode} {m : Mods} :
    digraphMatches r pk pm k m = true ↔
      (r.prevKey = none ∨ (r.prevKey = some pk ∧ pm &&& r.prevMask = r.prevVal)) ∧ k = r.curKey ∧
        m &&& r.curMask = r.curVal := by
  cases hprev : r.prevKey with
  | none => simp [digraphMatches, hprev]
  | some x => simp [digraphMatches, hprev, and_assoc, eq_comm (a := pk)]

theorem digraphMask_eq (r : DigraphRule) (pm m : Mods) :
    digraphMask r pm m = (((if r.src = .prev then pm else m) &&& r.keep) ||| r.force) ^^^ r.flip := by
  cases hsrc : r.src <;> simp [digraphMask, hsrc]

/-- The first rule that matches gives the output (R112). -/
theorem digraphKeys_of_first_match {c : Config} {before after : List DigraphRule} {r : DigraphRule} {pk k : Keycode}
    {pm m : Mods} (hrules : c.digraphRules = before ++ r :: after)
    (hbefore : ∀ q ∈ before, digraphMatches q pk pm k m = false) (hr : digraphMatches r pk pm k m = true) :
    digraphKeys c pk pm k m = (if r.bs then [(c.kcBackspace, 0)] else []) ++ [(r.outKey, digraphMask r pm m)] := by
  have hnone : before.find? (fun q => digraphMatches q pk pm k m) = none :=
    List.find?_eq_none.2 fun q hq => by simp [hbefore q hq]
  have hfind : c.digraphRules.find? (fun q => digraphMatches q pk pm k m) = some r := by
    rw [hrules, List.find?_append, hnone, Option.none_or]
    exact List.find?_cons_of_pos hr
  rw [digraphKeys, hfind]

theorem digraphKeys_of_no_match {c : Config} {pk k : Keycode} {pm m : Mods}
    (h : ∀ r ∈ c.digraphRules, ¬ digraphMatches r pk pm k m = true) : digraphKeys c pk pm k m = [(k, m)] := by
  rw [digraphKeys, List.find?_eq_none.2 h]

/-- A Digraph event sends its keys and becomes the previous one (R112, R113). -/
theorem digraph_eq (k : Keycode) (m : Mods) (s : State) : digraph k m s = .next
    { emitAll (digraphKeys s.cfg s.dgPrevKey s.dgPrevMods k m) s with dgPrevKey := k, dgPrevMods := m } := rfl

/-- Settles O34: the rules before `r` are passed over, and `r` fires. -/
theorem digraphFirstMatchFires : Obligations.DigraphFirstMatchFires := by
  intro s k m before after r hk hrules hbefore hprev hkey hmods src
  have hfire := digraphKeys_of_first_match hrules hbefore (digraphMatches_iff.2 ⟨hprev, hkey, hmods⟩)
  rw [digraphMask_eq] at hfire
  exact (modeEvent_of_ne_zero hk).trans ((digraph_eq k m s).trans (by rw [hfire]))

/-- Settles O35: with every rule passed over the output is the key itself. -/
theorem digraphForwardsUnmatched : Obligations.DigraphForwardsUnmatched := by
  intro s k m hk hnone
  have hforward := digraphKeys_of_no_match fun r hr => mt digraphMatches_iff.1 (hnone r hr)
  exact (modeEvent_of_ne_zero hk).trans ((digraph_eq k m s).trans (by rw [hforward, emitAll_singleton]))

/-! ### WordSubstitute -/

theorem isAlnum_iff {c : Config} {k : Keycode} :
    isAlnum c k = true ↔ c.kcAlnumLo.toNat ≤ k.toNat ∧ k.toNat ≤ c.kcAlnumHi.toNat := by
  simp [isAlnum]

/-- A letter gives the word's next letter without right Alt, or itself once the word is used up (R115). -/
theorem wordSubstitute_letter {k : Keycode} {m : Mods} {s : State} (hk : k ≠ s.cfg.kcBackspace)
    (hletter : isAlnum s.cfg k = true) : wordSubstitute k m s =
    if s.wsCount < s.cfg.wsWordLen then .next { emit (wordLetter s.cfg s.wsCount) (m &&& ~~~s.cfg.mods.ralt) s with
      wsCount := min (s.wsCount + 1) s.cfg.wsCountMax }
    else .next { emit k m s with wsCount := min (s.wsCount + 1) s.cfg.wsCountMax } := by
  simp only [wordSubstitute, if_neg hk, hletter, if_true]
  rfl

/-- A boundary key sends the rest of the word once a letter was typed, and then itself (R116). -/
theorem wordSubstitute_boundary {k : Keycode} {m : Mods} {s : State} (hk : k ≠ s.cfg.kcBackspace)
    (hboundary : isAlnum s.cfg k = false) : wordSubstitute k m s = .next { emitAll
      ((if 0 < s.wsCount then wordRest s.cfg s.wsCount (m &&& ~~~s.cfg.mods.ralt) else []) ++ [(k, m)]) s
      with wsCount := 0 } := by
  simp only [wordSubstitute, if_neg hk, hboundary, Bool.false_eq_true, if_false]
  rfl

/-- Settles O38: a key of the range is a letter, and the counter tells whether the word has letters left. -/
theorem wordSubstituteLetter : Obligations.WordSubstituteLetter := by
  intro s k m hk hback hlo hhi
  have hmode := wordSubstitute_letter (m := m) hback (isAlnum_iff.2 ⟨hlo, hhi⟩)
  refine ⟨fun hleft => (modeEvent_of_ne_zero hk).trans (hmode.trans ((if_pos hleft).trans ?_)),
    fun hused => (modeEvent_of_ne_zero hk).trans (hmode.trans (if_neg (Nat.not_lt.2 hused)))⟩
  rw [wordLetter, List.getD_eq_getElem _ _ hleft]

/-- The rest of the word, letter by letter (R116). -/
theorem wordRest_eq_map_range (c : Config) (n : Nat) (m : Mods) :
    wordRest c n m = (List.range (c.word.length - n)).map fun j => (c.word.getD (n + j) 0, m) := by
  refine List.ext_getElem (by simp [wordRest]) fun j hj _ => ?_
  have hrest : j < c.word.length - n := by simpa [wordRest] using hj
  have hpos : n + j < c.word.length := by omega
  simp [wordRest, hpos]

/-- Settles O39: a key outside the range is a boundary key, and the rest of the word is given letter by letter. -/
theorem wordSubstituteBoundary : Obligations.WordSubstituteBoundary := by
  intro s k m hk hback hrange
  refine (modeEvent_of_ne_zero hk).trans ((wordSubstitute_boundary hback (isAlnum_eq_false.2 hrange)).trans ?_)
  simp only [wordRest_eq_map_range, Nat.pos_iff_ne_zero, ite_not]

/-! ### WordReverse -/

/-- A backspace takes one off the count and is forwarded (R117). -/
theorem wordReverse_backspace (m : Mods) (s : State) :
    wordReverse s.cfg.kcBackspace m s = .next { emit s.cfg.kcBackspace m s with wrCount := s.wrCount - 1 } :=
  if_pos rfl

/-- Settles O40: KC_BACKSPACE, being a key, reaches the mode. -/
theorem wordReverseBackspace : Obligations.WordReverseBackspace :=
  fun s m hk => (modeEvent_of_ne_zero hk).trans (wordReverse_backspace m s)

/-- A letter is buffered while there is room, and echoed either way (R118, R119). -/
theorem wordReverse_letter {k : Keycode} {m : Mods} {s : State} (hk : k ≠ s.cfg.kcBackspace)
    (hletter : isAlnum s.cfg k = true) : wordReverse k m s =
    if s.wrCount < s.cfg.wrCap then .next { emit k m s with
      wrBuf := Memory.write s.wrBuf s.wrCount { key := k, mods := m }, wrCount := s.wrCount + 1 }
    else .next (emit k m s) := by
  simp only [wordReverse, if_neg hk, hletter, if_true]
  split
  · rw [bufWrite_eq_next.2 ⟨‹_›, rfl⟩]
    rfl
  · rfl

/-- Settles O41: a key of the range is a letter, and the count tells whether there is room. -/
theorem wordReverseLetter : Obligations.WordReverseLetter := by
  intro s k m hk hback hlo hhi
  have hmode := (modeEvent_of_ne_zero hk).trans (wordReverse_letter (m := m) hback (isAlnum_iff.2 ⟨hlo, hhi⟩))
  exact ⟨fun hroom => hmode.trans (if_pos hroom), fun hfull => hmode.trans (if_neg (Nat.not_lt.2 hfull))⟩

/-! ### RandomInterject -/

theorem isSentenceKey_iff {c : Config} {k : Keycode} :
    isSentenceKey c k = true ↔ k = c.kcSpace ∨ k = c.kcEnter ∨ k = c.kcPeriod ∨ k = c.kcComma := by
  simp [isSentenceKey, or_assoc]

/-- A boundary key draws, and sends what goes with the draw (R123). -/
theorem randomInterject_of_sentenceKey {k : Keycode} {m : Mods} {s : State} (h : isSentenceKey s.cfg k = true) :
    randomInterject k m s =
      andThen (draw s) fun p => .next (emitAll (interjectKeys s.cfg k m p.1) p.2) :=
  if_pos h

/-- A listed value in range is drawn (R121). -/
theorem draw_of_listed {s : State} {r : Nat} {rest : List Nat} (hdraws : s.draws = r :: rest)
    (hr : r < s.cfg.dictSize) : draw s = .next (r, { s with draws := rest }) := by
  simp [draw, hdraws, hr]

/-- A listed value out of range is refused (U8). -/
theorem draw_of_listed_beyond {s : State} {r : Nat} {rest : List Nat} (hdraws : s.draws = r :: rest)
    (hr : s.cfg.dictSize ≤ r) : draw s = .refused .drawOutOfRange := by
  simp [draw, hdraws, Nat.not_lt.2 hr]

/-- With none listed the free value, in range, is drawn (R121, log 10). -/
theorem draw_of_unlisted {s : State} (hdraws : s.draws = []) (hdict : 0 < s.cfg.dictSize) :
    draw s = .next (Config.freeDraw s.drawCount % s.cfg.dictSize, { s with drawCount := s.drawCount + 1 }) := by
  simp [draw, hdraws, Nat.mod_lt _ hdict]

/-- Settles O43: the first listed value is drawn or refused. -/
theorem randomInterjectBoundary : Obligations.RandomInterjectBoundary := by
  intro s k m r rest hk hkey hdraws
  have hmode := (modeEvent_of_ne_zero hk).trans
    (randomInterject_of_sentenceKey (m := m) (isSentenceKey_iff.2 hkey))
  refine ⟨fun hr => hmode.trans ?_, fun hr => hmode.trans ?_⟩
  · rw [draw_of_listed hdraws hr]
    rfl
  · rw [draw_of_listed_beyond hdraws hr]
    rfl

/-- Settles O44: the value drawn is the free one. -/
theorem randomInterjectDrawsSomeWord : Obligations.RandomInterjectDrawsSomeWord := by
  intro s k m hk hkey hdraws hdict
  refine ⟨_, Nat.mod_lt (Config.freeDraw s.drawCount) hdict, (modeEvent_of_ne_zero hk).trans
    ((randomInterject_of_sentenceKey (isSentenceKey_iff.2 hkey)).trans ?_)⟩
  rw [draw_of_unlisted hdraws hdict]
  rfl

/-! ### The letters of a dictionary word -/

/-- The element after the ones taken is the first to fail. -/
theorem takeWhile_stops {α : Type} (p : α → Bool) (xs : List α) (h : (xs.takeWhile p).length < xs.length) :
    p xs[(xs.takeWhile p).length] = false := by
  induction xs with
  | nil => simp at h
  | cons x xs ih =>
    cases hx : p x with
    | false => simp [hx]
    | true => simpa [hx] using ih (by simpa [hx] using h)

/-- The word is made of the entry's first letters. -/
theorem dictWord_prefix (c : Config) (r : Nat) : dictWord c r <+: (List.range c.dictWordLen).map (dictLetter c r) :=
  List.takeWhile_prefix _

theorem dictWord_length_le (c : Config) (r : Nat) : (dictWord c r).length ≤ c.dictWordLen := by
  simpa using (dictWord_prefix c r).length_le

/-- The letter after the word, if the entry has one, is a 0 (R122). -/
theorem dictLetter_dictWord_length {c : Config} {r : Nat} (h : (dictWord c r).length < c.dictWordLen) :
    dictLetter c r (dictWord c r).length = 0 := by
  unfold dictWord at h ⊢
  have hstop := takeWhile_stops (fun k => k != 0) ((List.range c.dictWordLen).map (dictLetter c r))
    (by simpa only [List.length_map, List.length_range] using h)
  simpa only [List.getElem_map, List.getElem_range, bne_eq_false_iff_eq] using hstop

/-- R7 on the parameters, part by part. -/
theorem wf_iff {c : Config} : c.wf = true ↔
    2 ≤ c.qsize ∧ c.idleTimeoutMs < 2 ^ c.timeWidth ∧ c.keymap.length = c.keymapSize ∧ c.keymap.getD 0 0 = 0 ∧
    c.word.length < c.wsCountMax ∧ c.dictFirstPopulated ≤ c.dict.length ∧
    (∀ entry ∈ c.dict.take c.dictFirstPopulated, ∀ k ∈ entry.take c.dictWordLen, k = 0) ∧
    ∀ k ∈ [c.kcBackspace, c.kcSpace, c.kcEnter, c.kcPeriod, c.kcComma, c.kcAlnumLo, c.kcAlnumHi], k ≠ 0 := by
  simp only [Config.wf, Bool.and_eq_true, decide_eq_true_eq, List.all_eq_true, beq_iff_eq, bne_iff_ne, and_assoc]

theorem getElem_mem_take {α : Type} {xs : List α} {i n : Nat} (hi : i < xs.length) (hn : i < n) :
    xs[i] ∈ xs.take n :=
  List.mem_take_iff_getElem.2 ⟨i, by omega, rfl⟩

/-- A reserved entry has no letter but 0 (R7). -/
theorem dictLetter_of_reserved {c : Config} {r j : Nat} (hwf : c.wf = true) (hr : r < c.dictFirstPopulated)
    (hj : j < c.dictWordLen) : dictLetter c r j = 0 := by
  obtain ⟨-, -, -, -, -, hsize, hreserved, -⟩ := wf_iff.1 hwf
  have hrow : r < c.dict.length := hr.trans_le hsize
  rw [dictLetter, List.getD_eq_getElem _ _ hrow]
  by_cases hlen : j < c.dict[r].length
  · rw [List.getD_eq_getElem _ _ hlen]
    exact hreserved _ (getElem_mem_take hrow hr) _ (getElem_mem_take hlen hj)
  · exact List.getD_eq_default _ _ (Nat.not_lt.1 hlen)

/-- So its word is empty (R7, R122). -/
theorem dictWord_of_reserved {c : Config} {r : Nat} (hwf : c.wf = true) (hr : r < c.dictFirstPopulated) :
    dictWord c r = [] := by
  refine List.takeWhile_eq_nil_iff.2 fun hpos => ?_
  have hzero := dictLetter_of_reserved hwf hr (j := 0) (by simpa using hpos)
  simp [hzero]

/-- Settles O45: the word is the entry's first letters, all of them nonzero, up to a 0 or DICT_WORD_LEN. -/
theorem dictionaryWordEndsAtItsTerminator : Obligations.DictionaryWordEndsAtItsTerminator := by
  intro c r
  refine ⟨fun j hj => ?_, ?_, dictWord_of_reserved⟩
  · have hletter : (dictWord c r)[j] = dictLetter c r j := by
      simpa using (dictWord_prefix c r).getElem hj
    have hne := List.mem_takeWhile_imp (List.getElem_mem hj)
    rw [hletter, bne_iff_ne] at hne
    exact ⟨by rw [List.getElem?_eq_getElem hj, hletter], hne⟩
  · exact (dictWord_length_le c r).eq_or_lt.imp_right fun hlt => ⟨hlt, dictLetter_dictWord_length hlt⟩

end Sys2Proof.Proofs
end

section
/-! PROOFS. The whole machine: what every instruction leaves alone, what a transaction answers, the reset state, and the
invariants across a step (spec/10_state.md R22, R23, R29, R30, R33, spec/60_exceptions.md R125, R139). -/

namespace Sys2Proof.Proofs

open Sys2Proof Sys2Proof.Machine Sys2Proof.Claims

/-! ### What every instruction leaves alone -/

/-- Every instruction is a transaction, a row of the opcode map, or has the frame of a mode event, as the sink
operations and the mode rows have. -/
theorem exec_cases {i : Instr} {s t : State} (h : exec i s = .next t) :
    IsTransaction i ∨ runRow i s = .next t ∨ ModeFrame s t := by
  cases i with
  | frame levels t => exact .inl (.inl (.inr ⟨levels, t, rfl⟩))
  | edge d t => exact .inl (.inl (.inl ⟨d, t, rfl⟩))
  | poll => exact .inl (.inr (.inl rfl))
  | reset => exact .inl (.inr (.inr rfl))
  | setMods | setKey | send =>
    cases h
    exact .inr (.inr ⟨List.suffix_rfl, rfl⟩)
  | modeIdentity | modeDigraph =>
    exact .inr (.inr (modeEvent_frame (fun _ hmode => by cases hmode; exact ⟨List.suffix_rfl, rfl⟩) h))
  | modeWordSubstitute => exact .inr (.inr (modeEvent_frame (fun _ => wordSubstitute_frame) h))
  | modeWordReverse => exact .inr (.inr (modeEvent_frame (fun _ => wordReverse_frame) h))
  | modeRandomInterject => exact .inr (.inr (modeEvent_frame (fun _ => randomInterject_frame) h))
  | _ => exact .inr (.inl h)

/-- Settles O54: transactions, rows and mode events each leave what is not theirs. -/
theorem parametersAreConstant : Obligations.ParametersAreConstant := by
  intro i s t h
  obtain htransaction | hrow | ⟨hdraws, hframe⟩ := exec_cases h
  · exact transaction_environment htransaction h
  · obtain ⟨hdraws, hframe⟩ := runRow_frame hrow
    exact ⟨(congrArg State.cfg hframe :), (congrArg State.presented hframe :), hdraws⟩
  · exact ⟨(congrArg State.cfg hframe :), (congrArg State.presented hframe :), hdraws⟩

/-- A transaction that changes the mode or the mask is RESET, or a POLL whose row changes it. -/
theorem transaction_mode_mask {i : Instr} {s t : State} (hi : IsTransaction i) (h : exec i s = .next t) :
    i = .reset ∨ (t.modeIndex = s.modeIndex ∧ t.modifierMask = s.modifierMask) ∨
    (i = .poll ∧ ∃ code u, Memory.read s.buf s.tail = some code ∧
      decodeStep code { s with tail := (s.tail + 1) % s.cfg.qsize } = .next u ∧
      t.modeIndex = u.modeIndex ∧ t.modifierMask = u.modifierMask) := by
  obtain hproducer | rfl | rfl := hi
  · obtain ⟨ds, now, hexec⟩ := exec_eq_edges_of_producer hproducer
    rw [hexec] at h
    have hframe := edges_frame h
    exact .inr (.inl ⟨(congrArg State.modeIndex hframe :), (congrArg State.modifierMask hframe :)⟩)
  · obtain ⟨-, rfl⟩ | ⟨code, u, -, -, hread, hrow, rfl⟩ := execPoll_eq_next.1 h
    · exact .inr (.inl ⟨rfl, rfl⟩)
    · exact .inr (.inr ⟨rfl, code, u, hread, hrow, rfl, rfl⟩)
  · exact .inl rfl

/-- Of the rows only the two switches write the mode. -/
theorem runRow_modeIndex {i : Instr} {s t : State} (h : runRow i s = .next t) (hchange : t.modeIndex ≠ s.modeIndex) :
    i = .modeNext ∨ i = .modePrev := by
  cases i with
  | modeNext => exact .inl rfl
  | modePrev => exact .inr rfl
  | makeKey e code =>
    obtain ⟨u, hmode, hclear⟩ := andThen_eq_next.1 h
    cases hclear
    obtain ⟨-, hframe⟩ := modeApply_frame hmode
    exact absurd (congrArg State.modeIndex hframe :) hchange
  | _ => cases h <;> exact absurd rfl hchange

/-- Settles O52: a row that changes the mode is one of the switches, and a POLL runs one only for its word. -/
theorem onlyModeSwitchesChangeTheMode : Obligations.OnlyModeSwitchesChangeTheMode := by
  intro i s t h hchange
  obtain htransaction | hrow | ⟨-, hframe⟩ := exec_cases h
  · obtain rfl | ⟨hkept, -⟩ | ⟨rfl, code, u, hread, hrow, hmode, -⟩ := transaction_mode_mask htransaction h
    · exact .inr (.inr (.inl rfl))
    · exact absurd hkept hchange
    · refine .inr (.inr (.inr ⟨rfl, ?_⟩))
      have hword := encode_decode_decodeWordOf s.breakPending s.extendedPending code
      obtain hswitch | hswitch := runRow_modeIndex hrow (hmode ▸ hchange)
      · obtain ⟨hb, he, hcode⟩ := decodeWordIn_inj (hword.symm.trans (congrArg encode hswitch))
        exact ⟨hb, he, .inl (hcode ▸ hread)⟩
      · obtain ⟨hb, he, hcode⟩ := decodeWordIn_inj (hword.symm.trans (congrArg encode hswitch))
        exact ⟨hb, he, .inr (hcode ▸ hread)⟩
  · exact (runRow_modeIndex hrow hchange).imp_right .inl
  · exact absurd (congrArg State.modeIndex hframe :) hchange

theorem pressModifier_other_bits (bit : Mods) (s : State) :
    (pressModifier bit s).modifierMask &&& ~~~bit = s.modifierMask &&& ~~~bit := by
  rw [pressModifier_eq, BitVec.and_or_distrib_right, BitVec.and_not_self]
  exact BitVec.or_zero

theorem releaseModifier_other_bits (bit : Mods) (s : State) :
    (releaseModifier bit s).modifierMask &&& ~~~bit = s.modifierMask &&& ~~~bit := by
  rw [releaseModifier_eq, BitVec.and_assoc, BitVec.and_self]

theorem switchMode_modifierMask (new : BitVec 3) (s : State) : (switchMode new s).modifierMask = s.modifierMask := by
  rw [switchMode_eq_ite]
  split <;> rfl

/-- Of the rows only the modifiers' write the mask, each in its own bit (R22). -/
theorem runRow_modifierMask {i : Instr} {s t : State} (h : runRow i s = .next t)
    (hchange : t.modifierMask ≠ s.modifierMask) :
    ∃ b e bit, (i, bit) ∈ modifierRows b s.cfg.mods e ∧ t.modifierMask &&& ~~~bit = s.modifierMask &&& ~~~bit := by
  cases i with
  | makeLShift e | makeRShift e =>
    cases h
    exact ⟨false, e, _, by simp [modifierRows, pressRows], pressModifier_other_bits _ s⟩
  | makeLAlt | makeRAlt | makeLCtrl | makeRCtrl | makeLGui | makeRGui =>
    cases h
    exact ⟨false, true, _, by simp [modifierRows, pressRows], pressModifier_other_bits _ s⟩
  | breakLShift e | breakRShift e =>
    cases h
    exact ⟨true, e, _, by simp [modifierRows, releaseRows], releaseModifier_other_bits _ s⟩
  | breakLAlt | breakRAlt | breakLCtrl | breakRCtrl | breakLGui | breakRGui =>
    cases h
    exact ⟨true, true, _, by simp [modifierRows, releaseRows], releaseModifier_other_bits _ s⟩
  | makeKey e code =>
    obtain ⟨u, hmode, hclear⟩ := andThen_eq_next.1 h
    cases hclear
    obtain ⟨-, hframe⟩ := modeApply_frame hmode
    exact absurd (congrArg State.modifierMask hframe :) hchange
  | modeNext | modePrev =>
    cases h
    exact absurd (switchMode_modifierMask _ s) hchange
  | _ => cases h <;> exact absurd rfl hchange

/-- Settles O53: a row that changes the mask is a modifier's, and a POLL runs one only for that modifier's code. -/
theorem onlyModifiersChangeTheMask : Obligations.OnlyModifiersChangeTheMask := by
  intro i s t h hchange
  obtain htransaction | hrow | ⟨-, hframe⟩ := exec_cases h
  · obtain rfl | ⟨-, hkept⟩ | ⟨rfl, code, u, hread, hrow, -, hmask⟩ := transaction_mode_mask htransaction h
    · exact .inl rfl
    · exact absurd hkept hchange
    · obtain ⟨b, e, bit, hmem, hother⟩ := runRow_modifierMask hrow (hmask ▸ hchange)
      exact .inr (.inr (.inr ⟨rfl, code, bit, hread, modbit_of_mem_modifierRows hmem, hmask ▸ hother⟩))
  · obtain ⟨b, e, bit, hmem, -⟩ := runRow_modifierMask hrow hchange
    cases b
    · exact .inr (.inl ⟨e, bit, hmem⟩)
    · exact .inr (.inr (.inl ⟨e, bit, hmem⟩))
  · exact absurd (congrArg State.modifierMask hframe :) hchange

/-! ### The contexts -/

/-- With the policy off a row writes the context of the active mode only (R28, R29). -/
theorem runRow_contexts {i : Instr} {s t : State} (hpolicy : s.cfg.clearContextOnSwitch = false)
    (h : runRow i s = .next t) :
    (s.modeIndex ≠ 1 → t.dgPrevKey = s.dgPrevKey ∧ t.dgPrevMods = s.dgPrevMods) ∧
    (s.modeIndex ≠ 2 → t.wsCount = s.wsCount) ∧
    (s.modeIndex ≠ 3 → t.wrCount = s.wrCount ∧ t.wrBuf = s.wrBuf) := by
  have hswitch (new : BitVec 3) : switchMode new s = clearFlags { s with modeIndex := new } := by
    simp [switchMode_eq_ite, hpolicy]
  cases i with
  | makeKey e code =>
    obtain ⟨u, hmode, hclear⟩ := andThen_eq_next.1 h
    cases hclear
    exact (modeApply_contexts hmode :)
  | modeNext =>
    cases (congrArg Host.Outcome.next (hswitch _)).symm.trans h
    exact ⟨fun _ => ⟨rfl, rfl⟩, fun _ => rfl, fun _ => ⟨rfl, rfl⟩⟩
  | modePrev =>
    cases (congrArg Host.Outcome.next (hswitch _)).symm.trans h
    exact ⟨fun _ => ⟨rfl, rfl⟩, fun _ => rfl, fun _ => ⟨rfl, rfl⟩⟩
  | _ => cases h <;> exact ⟨fun _ => ⟨rfl, rfl⟩, fun _ => rfl, fun _ => ⟨rfl, rfl⟩⟩

/-- Settles O51: a POLL changes contexts only by the row it runs. -/
theorem contextsBelongToTheirMode : Obligations.ContextsBelongToTheirMode := by
  intro s t hpolicy h
  obtain ⟨-, rfl⟩ | ⟨code, u, -, -, -, hrow, rfl⟩ := execPoll_eq_next.1 h
  · exact ⟨fun _ => ⟨rfl, rfl⟩, fun _ => rfl, fun _ => ⟨rfl, rfl⟩⟩
  · exact (runRow_contexts (s := { s with tail := (s.tail + 1) % s.cfg.qsize }) hpolicy hrow :)

/-! ### What the transactions answer -/

theorem edge_lastEdgeTime {d : Bool} {t : Nat} {s u : State} (h : edge d t s = .next u) :
    u.lastEdgeTime = t % 2 ^ s.cfg.timeWidth := by
  obtain ⟨bc, sr, -, ⟨-, rfl⟩ | ⟨-, ok, v, -, rfl⟩⟩ := edge_eq_next h <;> rfl

/-- After a run of edges `last_edge_time` is the time of the edges, unless there was none (R72). -/
theorem edges_lastEdgeTime {ds : List Bool} {t : Nat} {s u : State} (h : edges ds t s = .next u) :
    u.lastEdgeTime = if ds = [] then s.lastEdgeTime else t % 2 ^ s.cfg.timeWidth := by
  induction ds generalizing s with
  | nil => cases h; rfl
  | cons d ds ih =>
    obtain ⟨v, hedge, hrest⟩ := andThen_eq_next.1 h
    have hcfg : v.cfg = s.cfg := (congrArg State.cfg
      (edges_frame (ds := [d]) ((andThen_answer_next (edge d t s)).trans hedge)) :)
    rw [ih hrest, hcfg, edge_lastEdgeTime hedge]
    simp

/-- A POLL reports whether there was a code, and moves `tail` past it (R82). -/
theorem execPoll_result {s u : State} (h : execPoll s = .next u) :
    u.polls = s.polls ++ [decide (s.head ≠ s.tail)] ∧
      u.tail = if s.head = s.tail then s.tail else (s.tail + 1) % s.cfg.qsize := by
  obtain ⟨hempty, rfl⟩ | ⟨code, v, hne, -, -, hrow, rfl⟩ := execPoll_eq_next.1 h
  · simp [hempty]
  · obtain ⟨-, hframe⟩ := decodeStep_frame hrow
    have hpolls : v.polls = s.polls := (congrArg State.polls hframe :)
    have htail : v.tail = (s.tail + 1) % s.cfg.qsize := (congrArg State.tail hframe :)
    simp [hne, hpolls, htail]

/-- Settles O49: runs of edges and a POLL complete in a state of R33, with these answers. -/
theorem transactionsComplete : Obligations.TransactionsComplete := by
  intro s hI hE
  refine ⟨fun d t => ?_, fun levels t => ?_, ?_⟩
  · obtain ⟨u, hedge⟩ := edge_completes d t hI
    exact ⟨u, hedge, edge_lastEdgeTime hedge⟩
  · obtain ⟨u, hedges⟩ := edges_completes (frameLevels levels) t hI
    exact ⟨u, hedges, (edges_lastEdgeTime hedges).trans (if_neg (List.cons_ne_nil _ _))⟩
  · obtain ⟨u, hpoll⟩ := execPoll_completes hI hE.drawsInRange
    exact ⟨u, hpoll, execPoll_result hpoll⟩

/-! ### Reset -/

/-- Settles O48: the zero of each register is its reset value. -/
theorem resetInitialisesEveryRegister : Obligations.ResetInitialisesEveryRegister :=
  fun _ => rfl

/-- A machine built with admissible parameters starts in a state of R33: nothing is queued, buffered or written. -/
theorem inv_resetWith {c : Config} (hwf : c.wf = true) (hmodel : c.wfModel = true) :
    Invariants (State.resetWith c) := by
  obtain ⟨hqsize, -⟩ := wf_iff.1 hwf
  obtain ⟨hedges, ⟨hmodes, -⟩, -⟩ := wfModel_iff.1 hmodel
  exact {
    params := hwf
    paramsModel := hmodel
    headInRange := Nat.zero_lt_of_lt hqsize
    tailInRange := Nat.zero_lt_of_lt hqsize
    unreadWritten := fun i hi => absurd hi (by simp [queueCount, State.resetWith])
    bufCanonical := rfl
    bufInRange := rfl
    bitCountInRange := hedges
    shiftRegisterPartial := partialFrame_zero 0
    lastEdgeTimeInRange := Nat.two_pow_pos _
    modifierMaskHigh := BitVec.zero_and
    dgPrevModsHigh := BitVec.zero_and
    modeIndexInRange := hmodes
    wsCountInRange := Nat.zero_le _
    wrCountInRange := Nat.zero_le _
    wrBufWritten := fun i hi => absurd hi (Nat.not_lt_zero i)
    wrBufCanonical := rfl
    wrBufInRange := rfl }

/-- Settles O55: the reference parameters are admissible too. -/
theorem resetStateMeetsInvariants : Obligations.ResetStateMeetsInvariants :=
  ⟨inv_resetWith referenceConfig_wf referenceConfig_wfModel, fun _ => inv_resetWith⟩

/-! ### One step -/

/-- Settles O56: an idle block stays as it is, and a presented word is a transaction, which keeps the invariants and the
words still presented. -/
theorem stepKeepsInvariants : Obligations.StepKeepsInvariants := by
  intro s t hI hwords h
  cases hpresented : s.presented with
  | nil =>
    cases (step_of_idle hpresented).symm.trans h
    exact ⟨hI, hwords⟩
  | cons w rest =>
    obtain ⟨hw, hrest⟩ := List.forall_mem_cons.1 (hpresented ▸ hwords)
    obtain ⟨i, hdecode, hi⟩ := decode_environmentWord hw
    rw [step_of_presented hpresented hdecode] at h
    obtain ⟨-, hkept, -⟩ := transaction_environment hi h
    have htaken : Invariants { s with presented := rest } := { hI with }
    exact ⟨inv_of_transaction hi htaken h, hkept ▸ hrest⟩

end Sys2Proof.Proofs
end
